-- ==== Sys2Proof/Word.lean ====
section
/-! DEFINITION. The bit-vector types of the block: one buffer element, the command word, the 8-byte integer. -/

namespace Sys2Proof

/-- One element of IBUF or OBUF, a byte or a character code (20_memory.md R41, R44; 30_encoding.md R66). -/
abbrev Byte := BitVec 8

/-- The command word CMD (30_encoding.md R60). -/
abbrev CmdWord := BitVec 4

/-- The 8-byte integer IVAL, a 64-bit pattern (10_state.md R16, 20_memory.md R46). -/
abbrev Word64 := BitVec 64

end Sys2Proof
end

