-- ==== Sys2Proof/Config.lean ====
section
/-! DEFINITION. What is fixed for one machine (the open parameters of 00_scope.md R7), the names of the
block's fixed choices (codec, mode, direction, phase, fault kind), and the free values the spec leaves open. -/

namespace Sys2Proof

/-- The open parameters of R7. The machine carries them (State.cfg), so that a statement about every state
holds for every choice of them (log entry 4). -/
structure Config where
  /-- LEN_W, bits of a length register. -/
  lenW : Nat
  /-- IBUF_SIZE, elements of the input buffer. -/
  ibufSize : Nat
  /-- OBUF_SIZE, elements of the output buffer. -/
  obufSize : Nat
deriving DecidableEq, Repr

/-- The parameters State.reset takes. DESIGN CHOICE (log entry 4, unsafe): R7 leaves them open. -/
def Config.standard : Config := { lenW := 16, ibufSize := 1024, obufSize := 2048 }

/-- The two codecs of R1. -/
inductive Codec where
  /-- 5 bits a symbol, 32 symbols. -/
  | b32
  /-- 6 bits a symbol, 64 URL-safe symbols. -/
  | b64u
deriving DecidableEq, Repr

/-- The field MODE of the command word (30_encoding.md R60). -/
inductive Mode where
  /-- General path, fresh result. -/
  | gen
  /-- General path, caller-supplied buffer. -/
  | buf
  /-- Fixed-width 16-byte value. -/
  | f16
  /-- Fixed-width 8-byte value. -/
  | f8
deriving DecidableEq, Repr

/-- The field DIR of the command word (30_encoding.md R60). -/
inductive Dir where
  | encode
  | decode
deriving DecidableEq, Repr

/-- The values PHASE takes (10_state.md R19); the fourth pattern is never produced (log entry 24). -/
inductive Phase where
  | idle
  | busy
  | done
deriving DecidableEq, Repr, Inhabited

/-- The four fault kinds of 60_exceptions.md R190. -/
inductive FaultKind where
  | invalidCharacter
  | lengthMismatch
  | bufferTooSmall
  | reservedCommand
deriving DecidableEq, Repr, Inhabited

/-- What STATUS reports (10_state.md R17); the codes 5 to 7 are never produced (log entry 24). -/
inductive Status where
  | ok
  | raised (k : FaultKind)
deriving DecidableEq, Repr, Inhabited

/-- The scratch state inside a command (10_state.md R23). No rule reads it outside a command (log entry 20). -/
structure Scratch where
  /-- ACC, the bit accumulator. -/
  acc : BitVec 13
  /-- NB, how many bits ACC holds. -/
  nb : Nat
  /-- RP, the read cursor. -/
  rp : Nat
  /-- WP, the write cursor. -/
  wp : Nat
  /-- K, the effective symbol count. -/
  k : Nat
  /-- PADSEEN, the flag of the substitution stage. -/
  padSeen : Bool
deriving DecidableEq, Repr, Inhabited

/-- What the four registers that reset leaves unspecified (10_state.md R28) read as before they are written. -/
structure ResetValues where
  /-- CMD. -/
  cmd : CmdWord
  /-- IN_LEN, before it is cut to LEN_W bits. -/
  inLen : Nat
  /-- OUT_CAP, before it is cut to LEN_W bits. -/
  outCap : Nat
  /-- IVAL. -/
  ival : Word64
deriving DecidableEq, Repr, Inhabited

/-- FREE VALUE: what a host reads from CMD, IN_LEN, OUT_CAP and IVAL while nothing has written them since reset, at the
draw of that reset (10_state.md R26, R28; log entries 6, 18). -/
opaque Config.freeReset : Nat → ResetValues

/-- FREE VALUE: element `index` of OBUF where the spec calls it unspecified, at draw `draw` (log entries 6, 7). -/
opaque Config.freeByte : Nat → Nat → Byte

/-- FREE VALUE: IVAL after a faulting DECF8 (60_exceptions.md R196; log entries 6, 8). -/
opaque Config.freeIval : Nat → Word64

/-- FREE VALUE: STATUS while PHASE is BUSY (10_state.md R17; log entries 6, 9). -/
opaque Config.freeStatus : Nat → Status

/-- FREE VALUE: OUT_LEN while PHASE is BUSY, before it is cut to LEN_W bits (R226; log entries 6, 9). -/
opaque Config.freeLen : Nat → Nat

/-- FREE VALUE: the scratch state after a command (10_state.md R23; log entries 6, 20). -/
opaque Config.freeScratch : Nat → Scratch

end Sys2Proof
end

