-- ==== Sys2Proof/Syntax.lean ====
section
/-! DEFINITION. The command set: one constructor per row of spec/opcode_table.json. A command has no operand
field; its operands are registers and buffers (30_encoding.md R65). -/

namespace Sys2Proof

/-- The sixteen values of CMD (30_encoding.md R62, R63). -/
inductive Instr where
  /-- R131 -/
  | enc32
  /-- R151 -/
  | dec32
  /-- R132 -/
  | enc64
  /-- R152 -/
  | dec64
  /-- R133 -/
  | enc32b
  /-- R153 -/
  | dec32b
  /-- R134 -/
  | enc64b
  /-- R154 -/
  | dec64b
  /-- Reserved code 8, R63. -/
  | rsv8
  /-- Reserved code 9, R63. -/
  | rsv9
  /-- R171 -/
  | encf16
  /-- R172 -/
  | decf16
  /-- Reserved code 12, R63. -/
  | rsv12
  /-- Reserved code 13, R63. -/
  | rsv13
  /-- R173 -/
  | encf8
  /-- R174 -/
  | decf8
deriving DecidableEq, Repr

end Sys2Proof
end

