-- ==== Sys2Proof/Decode.lean ====
section
/-! DEFINITION. The command word: its fields, decoding (total, rejecting by name what is no command word) and
encoding, from the tables of 30_encoding.md R60, R62 and R63. -/

namespace Sys2Proof

/-- `CMD[0] = DIR` (R60). -/
def cmdDir (c : CmdWord) : Dir := if c.getLsbD 0 then .decode else .encode

/-- `CMD[1] = CODEC` (R60). -/
def cmdCodec (c : CmdWord) : Codec := if c.getLsbD 1 then .b64u else .b32

/-- `CMD[3:2] = MODE` (R60). -/
def cmdMode (c : CmdWord) : Mode :=
  match c.getLsbD 3, c.getLsbD 2 with
  | false, false => .gen
  | false, true => .buf
  | true, false => .f16
  | true, true => .f8

/-- The operation the three fields select: R62, and R63 for fixed width with codec B32. -/
def instrOf : Mode → Codec → Dir → Instr
  | .gen, .b32, .encode => .enc32
  | .gen, .b32, .decode => .dec32
  | .gen, .b64u, .encode => .enc64
  | .gen, .b64u, .decode => .dec64
  | .buf, .b32, .encode => .enc32b
  | .buf, .b32, .decode => .dec32b
  | .buf, .b64u, .encode => .enc64b
  | .buf, .b64u, .decode => .dec64b
  | .f16, .b32, .encode => .rsv8
  | .f16, .b32, .decode => .rsv9
  | .f16, .b64u, .encode => .encf16
  | .f16, .b64u, .decode => .decf16
  | .f8, .b32, .encode => .rsv12
  | .f8, .b32, .decode => .rsv13
  | .f8, .b64u, .encode => .encf8
  | .f8, .b64u, .decode => .decf8

/-- Decoding CMD is total on the sixteen values (R64). -/
def decodeCmd (c : CmdWord) : Instr := instrOf (cmdMode c) (cmdCodec c) (cmdDir c)

/-- Why bytes are no command word (log entry 22). -/
inductive DecodeReject where
  /-- No byte at all. -/
  | noWord
  /-- A bit above the four of CMD is set. -/
  | notFourBits
  /-- More than one byte: the length of a command word is always 4 bits (R64). -/
  | tooLong
deriving DecidableEq, Repr

/-- Decoding bytes: a command word stands in the low four bits of one byte (log entry 22). -/
def decode : List Byte → Except DecodeReject Instr
  | [] => .error .noWord
  | [b] => if b.toNat < 16 then .ok (decodeCmd (b.setWidth 4)) else .error .notFourBits
  | _ :: _ :: _ => .error .tooLong

/-- The MODE of an operation, by the table of R62 and R63. -/
def Instr.mode : Instr → Mode
  | .enc32 | .dec32 | .enc64 | .dec64 => .gen
  | .enc32b | .dec32b | .enc64b | .dec64b => .buf
  | .rsv8 | .rsv9 | .encf16 | .decf16 => .f16
  | .rsv12 | .rsv13 | .encf8 | .decf8 => .f8

/-- The CODEC of an operation, by the table of R62 and R63. -/
def Instr.codec : Instr → Codec
  | .enc32 | .dec32 | .enc32b | .dec32b | .rsv8 | .rsv9 | .rsv12 | .rsv13 => .b32
  | .enc64 | .dec64 | .enc64b | .dec64b | .encf16 | .decf16 | .encf8 | .decf8 => .b64u

/-- The DIR of an operation, by the table of R62 and R63. -/
def Instr.dir : Instr → Dir
  | .enc32 | .enc64 | .enc32b | .enc64b | .rsv8 | .encf16 | .rsv12 | .encf8 => .encode
  | .dec32 | .dec64 | .dec32b | .dec64b | .rsv9 | .decf16 | .rsv13 | .decf8 => .decode

/-- The bits of MODE (R60). -/
def Mode.bits : Mode → BitVec 2
  | .gen => 0b00#2
  | .buf => 0b01#2
  | .f16 => 0b10#2
  | .f8 => 0b11#2

/-- The bit of CODEC (R60). -/
def Codec.bits : Codec → BitVec 1
  | .b32 => 0#1
  | .b64u => 1#1

/-- The bit of DIR (R60). -/
def Dir.bits : Dir → BitVec 1
  | .encode => 0#1
  | .decode => 1#1

/-- The command word of an operation: MODE, CODEC and DIR from the most significant bit down (R60). -/
def encode (i : Instr) : CmdWord := i.mode.bits ++ i.codec.bits ++ i.dir.bits

/-- The one byte that carries the command word (log entry 22). -/
def encodeBytes (i : Instr) : List Byte := [(encode i).setWidth 8]

/-- The bytes of a table word, the first byte lowest. -/
def tableBytes (nbits w : Nat) : List Byte :=
  (List.range ((nbits + 7) / 8)).map fun k => BitVec.ofNat 8 (w / 2 ^ (8 * k))

/-- What the decoder reads from an instruction whose bits are `w` in the numbering of spec/opcode_table.json. -/
def decodeTableWord (nbits w : Nat) : Option Instr :=
  match decode (tableBytes nbits w) with
  | .ok i => some i
  | .error _ => none

end Sys2Proof
end

