-- ==== Sys2Proof/Machine/Tables.lean ====
section
/-! DEFINITION. The codec parameters of 00_scope.md R7 and the look-up tables of 30_encoding.md R66 to R71: the
alphabets, their inverses, the padding character, and the two-stage form of the URL-safe mapper (40_datapath.md
R107, R108). The tables are constants (10_state.md R22); their contents are the spec's own (log entry 5). -/

namespace Sys2Proof.Machine

/-- `W(codec)`, bits a symbol (R7). -/
def width : Codec → Nat
  | .b32 => 5
  | .b64u => 6

/-- `NSYM(codec) = 2^w` (R7). -/
def numSymbols (c : Codec) : Nat := 2 ^ width c

/-- `BS(codec)`, symbols a block (R7, R73). -/
def blockSymbols : Codec → Nat
  | .b32 => 8
  | .b64u => 4

/-- `BB(codec)`, bytes a block (R7, R73). -/
def blockBytes : Codec → Nat
  | .b32 => 5
  | .b64u => 3

/-- `CASE_INSENSITIVE(codec)` (R7). -/
def caseInsensitive : Codec → Bool
  | .b32 => true
  | .b64u => false

/-- The padding character `=` (R67). -/
def pad : Byte := 0x3D#8

/-- The codes of `A` to `Z` (R66). -/
def upperCase : List Byte :=
  [0x41#8, 0x42#8, 0x43#8, 0x44#8, 0x45#8, 0x46#8, 0x47#8, 0x48#8, 0x49#8, 0x4A#8, 0x4B#8, 0x4C#8, 0x4D#8] ++
  [0x4E#8, 0x4F#8, 0x50#8, 0x51#8, 0x52#8, 0x53#8, 0x54#8, 0x55#8, 0x56#8, 0x57#8, 0x58#8, 0x59#8, 0x5A#8]

/-- The codes of `a` to `z` (R66). -/
def lowerCase : List Byte :=
  [0x61#8, 0x62#8, 0x63#8, 0x64#8, 0x65#8, 0x66#8, 0x67#8, 0x68#8, 0x69#8, 0x6A#8, 0x6B#8, 0x6C#8, 0x6D#8] ++
  [0x6E#8, 0x6F#8, 0x70#8, 0x71#8, 0x72#8, 0x73#8, 0x74#8, 0x75#8, 0x76#8, 0x77#8, 0x78#8, 0x79#8, 0x7A#8]

/-- ALPHA32 (R68): `A` to `Z`, then `2` to `7`. -/
def alpha32 : List Byte := upperCase ++ [0x32#8, 0x33#8, 0x34#8, 0x35#8, 0x36#8, 0x37#8]

/-- The codes of `0` to `9` (R66). -/
def digits : List Byte := [0x30#8, 0x31#8, 0x32#8, 0x33#8, 0x34#8, 0x35#8, 0x36#8, 0x37#8, 0x38#8, 0x39#8]

/-- ALPHA64 (R70): `A` to `Z`, `a` to `z`, `0` to `9`, `-`, `_`. -/
def alpha64 : List Byte := upperCase ++ lowerCase ++ digits ++ [0x2D#8, 0x5F#8]

/-- The alphabet of a codec. -/
def alphabet : Codec → List Byte
  | .b32 => alpha32
  | .b64u => alpha64

/-- An entry of an inverse table (R69, R71). -/
inductive InvEntry where
  | value (v : Nat)
  | padMark
  | invalid
deriving DecidableEq, Repr

/-- INV32 (R69): letters of either case, the digits `2` to `7`, the padding mark. -/
def inv32 (c : Byte) : InvEntry :=
  let n := c.toNat
  if 0x41 ≤ n ∧ n ≤ 0x5A then .value (n - 0x41)
  else if 0x61 ≤ n ∧ n ≤ 0x7A then .value (n - 0x61)
  else if 0x32 ≤ n ∧ n ≤ 0x37 then .value (n - 0x32 + 26)
  else if n = 0x3D then .padMark
  else .invalid

/-- INV64 (R71): case-sensitive; `+` and `/` are invalid. -/
def inv64 (c : Byte) : InvEntry :=
  let n := c.toNat
  if 0x41 ≤ n ∧ n ≤ 0x5A then .value (n - 0x41)
  else if 0x61 ≤ n ∧ n ≤ 0x7A then .value (n - 0x61 + 26)
  else if 0x30 ≤ n ∧ n ≤ 0x39 then .value (n - 0x30 + 52)
  else if n = 0x2D then .value 62
  else if n = 0x5F then .value 63
  else if n = 0x3D then .padMark
  else .invalid

/-- `INV(codec, c)` (40_datapath.md R106). -/
def invOf : Codec → Byte → InvEntry
  | .b32, c => inv32 c
  | .b64u, c => inv64 c

/-- The value of a character that is a symbol of the codec; none for the padding mark and for invalid
characters (40_datapath.md R113). -/
def symbolValue (codec : Codec) (c : Byte) : Option Nat :=
  match invOf codec c with
  | .value v => some v
  | .padMark => none
  | .invalid => none

/-- `MAP(codec, v)` (40_datapath.md R105). A group value lies below `2^w`, so the default is never taken
(Laws/Tables.lean, mapSymbol_mem). -/
def mapSymbol (codec : Codec) (v : Nat) : Byte := (alphabet codec).getD v pad

/-- STD64 (R70): the standard 6-bit table, with `+` at 62 and `/` at 63. -/
def std64 : List Byte := upperCase ++ lowerCase ++ digits ++ [0x2B#8, 0x2F#8]

/-- SUBST, the encode side of the substitution stage (R70, R107): `+` to `-`, `/` to `_`. -/
def subst (c : Byte) : Byte :=
  if c = 0x2B#8 then 0x2D#8 else if c = 0x2F#8 then 0x5F#8 else c

/-- The decode side of the substitution stage (R107): `-` to `+`, `_` to `/`. -/
def substBack (c : Byte) : Byte :=
  if c = 0x2D#8 then 0x2B#8 else if c = 0x5F#8 then 0x2F#8 else c

/-- The decode-side stage over a text with its flag PADSEEN (R108): from the first `=` on, every character passes
unchanged. -/
def substStage (padSeen : Bool) : List Byte → List Byte
  | [] => []
  | c :: cs =>
    let seen := padSeen || c == pad
    (if seen then c else substBack c) :: substStage seen cs

/-- Look-up in STD64 (R107): the position of a character of the standard table. -/
def stdValue (c : Byte) : Option Nat := std64.idxOf? c

/-- The two-stage decoder of one character (R107): `+` and `/` are rejected before the substitution. -/
def twoStageValue (c : Byte) : Option Nat :=
  if c = 0x2B#8 ∨ c = 0x2F#8 then none else stdValue (substBack c)

end Sys2Proof.Machine
end

