-- ==== Sys2Proof/Machine/Datapath.lean ====
section
/-! DEFINITION. The datapath as functions: packer, unpacker, padding controller, validator, the fixed-width mux's
parameters (40_datapath.md R90 to R119) and the byte order of the 8-byte integer (20_memory.md R46). -/

namespace Sys2Proof.Machine

/-- `bit(p)` of R91: `BITS(b)[p]`, that is bit `7 - j` of `b[i]` at `p = 8i + j` (R90), and 0 past the end. -/
def streamBit (b : List Byte) (p : Nat) : Bool :=
  match b[p / 8]? with
  | some x => x.getLsbD (7 - p % 8)
  | none => false

/-- The number read from `w` bits, the first most significant (20_memory.md R43): `Σ bit(t) · 2^(w-1-t)`. -/
def bitsValue (w : Nat) (bit : Nat → Bool) : Nat :=
  ((List.range w).map fun t => (bit t).toNat * 2 ^ (w - 1 - t)).sum

/-- `SYMCOUNT(w, n) = ceil(8n / w)` (R109). -/
def symCount (w n : Nat) : Nat := (8 * n + w - 1) / w

/-- `PACK(w, b)` (R91). -/
def pack (w : Nat) (b : List Byte) : List Nat :=
  (List.range (symCount w b.length)).map fun q => bitsValue w fun t => streamBit b (q * w + t)

/-- `sbit(p)` of R98: bit `w - 1 - t` of `s[i]` at `p = w·i + t`, and 0 past the end. -/
def symbolBit (w : Nat) (s : List Nat) (p : Nat) : Bool :=
  match s[p / w]? with
  | some v => v.testBit (w - 1 - p % w)
  | none => false

/-- `DECLEN(w, k) = floor(k·w / 8)` (R99). -/
def decLen (w k : Nat) : Nat := k * w / 8

/-- `UNPACK(w, s)` (R98). -/
def unpack (w : Nat) (s : List Nat) : List Byte :=
  (List.range (decLen w s.length)).map fun j =>
    BitVec.ofNat 8 (bitsValue 8 fun t => symbolBit w s (8 * j + t))

/-- `PADDEDLEN(codec, n) = BS · ceil(n / BB)` (R109). -/
def paddedLen (codec : Codec) (n : Nat) : Nat :=
  blockSymbols codec * ((n + blockBytes codec - 1) / blockBytes codec)

/-- `PADCOUNT(codec, n) = PADDEDLEN(codec, n) - SYMCOUNT(w, n)` (R109). -/
def padCount (codec : Codec) (n : Nat) : Nat := paddedLen codec n - symCount (width codec) n

/-- The canonical text of a byte sequence (30_encoding.md R75): the symbols, then the padding (R110). -/
def canonicalText (codec : Codec) (b : List Byte) : List Byte :=
  (pack (width codec) b).map (mapSymbol codec) ++ List.replicate (padCount codec b.length) pad

/-- `TRIM(t)` (R111): the length of the text without its trailing padding characters. -/
def trim (t : List Byte) : Nat := (t.reverse.dropWhile fun c => c == pad).length

/-- The scan of R113 over the characters it is given. -/
def validateAll (codec : Codec) : List Byte → Option (List Nat)
  | [] => some []
  | c :: cs =>
    match symbolValue codec c with
    | none => none
    | some v =>
      match validateAll codec cs with
      | none => none
      | some vs => some (v :: vs)

/-- `VALIDATE(codec, t, k)` (R113); none where it raises InvalidCharacter. -/
def validate (codec : Codec) (t : List Byte) (k : Nat) : Option (List Nat) := validateAll codec (t.take k)

/-- The parameters the mux selects (R117): value bytes FB, text length FC, padding stripped FS. -/
structure FixedWidth where
  fb : Nat
  fc : Nat
  fs : Nat
deriving DecidableEq, Repr

/-- The row F16 of R117. -/
def fixed16 : FixedWidth := { fb := 16, fc := 22, fs := 2 }

/-- The row F8 of R117. -/
def fixed8 : FixedWidth := { fb := 8, fc := 11, fs := 1 }

/-- The text of a fixed-width value (R118, 30_encoding.md R76): symbols only. -/
def fixedText (v : List Byte) : List Byte := (pack 6 v).map (mapSymbol .b64u)

/-- `LE64(v)` (20_memory.md R46): byte `j` is `v[8j+7 : 8j]`. -/
def le64 (v : Word64) : List Byte := (List.range 8).map fun j => v.extractLsb' (8 * j) 8

/-- `Σ b[j] · 2^(8j)`. -/
def leValue : List Byte → Nat
  | [] => 0
  | b :: bs => b.toNat + 256 * leValue bs

/-- `UNLE64(b)` (20_memory.md R46). -/
def unle64 (b : List Byte) : Word64 := BitVec.ofNat 64 (leValue b)

/-! ## The step forms (R93, R101) -/

/-- The inner loop of R93: while NB ≥ w, emit a group. The first argument bounds the number of turns; NB turns
are always enough. It answers the groups, ACC and NB. -/
def packDrain (w : Nat) : Nat → Nat → Nat → List Nat × Nat × Nat
  | 0, acc, nb => ([], acc, nb)
  | fuel + 1, acc, nb =>
    if w ≤ nb then
      let r := packDrain w fuel (acc &&& (2 ^ (nb - w) - 1)) (nb - w)
      (((acc >>> (nb - w)) &&& (2 ^ w - 1)) :: r.1, r.2.1, r.2.2)
    else ([], acc, nb)

/-- The outer loop of R93 over the bytes still to be read, with the zero fill of R92 at the end. -/
def packLoop (w : Nat) : List Byte → Nat → Nat → List Nat
  | [], acc, nb => if 0 < nb then [(acc <<< (w - nb)) &&& (2 ^ w - 1)] else []
  | b :: bs, acc, nb =>
    let r := packDrain w (nb + 8) ((acc <<< 8) ||| b.toNat) (nb + 8)
    r.1 ++ packLoop w bs r.2.1 r.2.2

/-- The step form of the packer (R93). -/
def packSteps (w : Nat) (b : List Byte) : List Nat := packLoop w b 0 0

/-- The loop of R101 over the symbol values still to be read. -/
def unpackLoop (w : Nat) : List Nat → Nat → Nat → List Byte
  | [], _, _ => []
  | s :: ss, acc, nb =>
    let acc := (acc <<< w) ||| s
    let nb := nb + w
    if 8 ≤ nb then
      BitVec.ofNat 8 ((acc >>> (nb - 8)) &&& 0xFF) :: unpackLoop w ss (acc &&& (2 ^ (nb - 8) - 1)) (nb - 8)
    else unpackLoop w ss acc nb

/-- The step form of the unpacker (R101). -/
def unpackSteps (w : Nat) (s : List Nat) : List Byte := unpackLoop w s 0 0

end Sys2Proof.Machine
end

