-- ==== Sys2Proof/Machine/Script.lean ====
section
/-! DEFINITION. The host's side as plain data: the elementary actions a host may perform on the block
(10_state.md R26; 70_reset_and_hazards.md R220, R224), what it has read, and the lines of the host script
(30_encoding.md R77). -/

namespace Sys2Proof.Machine

/-- The seven interface registers, as a host names them (10_state.md R11). -/
inductive HostReg where
  | cmd
  | inLen
  | outCap
  | ival
  | status
  | outLen
  | phase
deriving DecidableEq, Repr

/-- One thing a host reads (10_state.md R26; 30_encoding.md R77). -/
inductive ReadTarget where
  /-- A register. -/
  | reg (r : HostReg)
  /-- One element of OBUF. -/
  | obuf (i : Nat)
  /-- `OBUF[0..OUT_LEN)`, the line `RD OBUF`. -/
  | result
deriving DecidableEq, Repr

/-- What one read gave. -/
inductive HostRead where
  /-- The value of a register, as a number. -/
  | reg (r : HostReg) (v : Nat)
  /-- The value of one element of OBUF. -/
  | obuf (i : Nat) (b : Byte)
  /-- The elements `OBUF[0..OUT_LEN)`. -/
  | result (bytes : List Byte)
deriving DecidableEq, Repr

/-- One action of the host on the block. The host has no action that writes STATUS, OUT_LEN, PHASE or OBUF (R26). -/
inductive HostAction where
  | writeCmd (c : CmdWord)
  | writeInLen (n : Nat)
  | writeOutCap (n : Nat)
  | writeIval (v : Word64)
  /-- One element of IBUF. -/
  | writeIbuf (i : Nat) (b : Byte)
  /-- The event START (R224). -/
  | start
  /-- Wait for PHASE = DONE (R77). -/
  | awaitDone
  | read (t : ReadTarget)
  /-- The block's reset (R220). -/
  | reset
deriving DecidableEq, Repr

/-- A line of the host script (R77). -/
inductive ScriptLine where
  /-- `WRB IBUF, <hex bytes>` -/
  | wrb (bytes : List Byte)
  /-- `WRT IBUF, "<text>"`, the text as its character codes -/
  | wrt (codes : List Byte)
  /-- `WR IN_LEN, n` -/
  | wrInLen (n : Nat)
  /-- `WR OUT_CAP, n` -/
  | wrOutCap (n : Nat)
  /-- `WR IVAL, v` -/
  | wrIval (v : Word64)
  /-- `<MNEMONIC>` -/
  | command (i : Instr)
  /-- `WR CMD, c ; START`, for the reserved codes -/
  | rawCommand (c : CmdWord)
  /-- `RD STATUS` -/
  | rdStatus
  /-- `RD OUT_LEN` -/
  | rdOutLen
  /-- `RD IVAL` -/
  | rdIval
  /-- `RD OBUF` -/
  | rdObuf
deriving DecidableEq, Repr

end Sys2Proof.Machine
end

