-- ==== Sys2Proof/Machine/State.lean ====
section
/-! DEFINITION. The state of the machine as plain data, the reasons a step can stop, and the state after reset
(10_state.md R10 to R28; 70_reset_and_hazards.md R220). -/

namespace Sys2Proof.Machine

/-- A buffer: its written elements by rising index. An unlisted element holds no value (10_state.md R27, R28;
log entry 3). -/
abbrev Memory := List Host.Cell

/-- The two buffers of 20_memory.md R40. -/
inductive Space where
  | ibuf
  | obuf
deriving DecidableEq, Repr

/-- Which registers without a reset value have been written since reset (10_state.md R27). -/
structure Written where
  cmd : Bool
  inLen : Bool
  outCap : Bool
  ival : Bool
deriving DecidableEq, Repr

/-- Why the machine stops with a fault. The block's own faults (60_exceptions.md R190) are next states, not these. -/
inductive Fault where
  /-- A host action names an element outside a buffer, which the spec says does not exist (20_memory.md R41).
  Raised by HostAction.writeIbuf and by a read of one OBUF element. Safe: nothing is claimed of it (log entry 17). -/
  | noSuchElement (b : Space) (i : Nat)
deriving DecidableEq, Repr

/-- Why a step has no meaning. Each is a situation the spec calls refused, and each is safe: the model claims nothing. -/
inductive Refusal where
  /-- No meaning yet for this instruction. Safe. Raised by no arm of exec at present. -/
  | notModelled (mnemonic : String)
  /-- A command or START would read a register nothing has written since reset (10_state.md R27,
  70_reset_and_hazards.md R223, 92_eei_decisions.md D13, 93_implementation_defined.md U12). Safe (log entries 2, 11). -/
  | unwrittenRegister (r : HostReg)
  /-- A command or START would read an element of IBUF nothing has written since reset (R27, R223, D13, U12). Safe (log
  entries 3, 11). -/
  | unwrittenElement
  /-- IN_LEN > IBUF_SIZE at a command that reads IN_LEN, or at the START of any but ENCF16 and ENCF8 (40_datapath.md
  R121, 70_reset_and_hazards.md R229). Safe (log entry 12). -/
  | inLenTooLarge
  /-- OUT_CAP > OBUF_SIZE at a buffer-supplied command (R121, R228). Safe. -/
  | outCapTooLarge
  /-- The output of a fresh-result command would exceed OBUF_SIZE (R121, R228). Safe. -/
  | needTooLarge
  /-- START while PHASE is BUSY (R227). Safe. -/
  | startWhileBusy
  /-- A host write while PHASE is BUSY (R225). Safe. -/
  | hostWriteWhileBusy
  /-- A host read of anything but PHASE while PHASE is BUSY (R226). Safe. -/
  | hostReadWhileBusy
  /-- A host write of a length that LEN_W bits cannot hold (10_state.md R14, R15). Safe (log entry 16). -/
  | lengthTooWide
deriving DecidableEq, Repr

/-- The machine. INVENTORY.md '## State' lists every field with its rule. -/
structure State where
  /-- The parameters of R7 (log entry 4). -/
  cfg : Config
  /-- CMD (R13). -/
  cmd : CmdWord
  /-- IN_LEN, below `2 ^ LEN_W` (R14). -/
  inLen : Nat
  /-- OUT_CAP, below `2 ^ LEN_W` (R15). -/
  outCap : Nat
  /-- IVAL (R16). -/
  ival : Word64
  /-- STATUS (R17). -/
  status : Status
  /-- OUT_LEN, below `2 ^ LEN_W` (R18). -/
  outLen : Nat
  /-- PHASE (R19). -/
  phase : Phase
  /-- IBUF (R20). -/
  ibuf : Memory
  /-- OBUF (R21). -/
  obuf : Memory
  /-- What has been written since reset (R27). -/
  written : Written
  /-- The scratch state (R23). -/
  scratch : Scratch
  /-- The model's own counter of free-value draws (log entry 6). -/
  draws : Nat
  /-- The model's own: the draw of the last reset, for what is read before it is written (log entries 6, 18). -/
  resetDraw : Nat
  /-- The host's actions not yet performed (R77; log entry 15). -/
  script : List HostAction
  /-- What the host has read, oldest first (R77; log entry 15). -/
  reads : List HostRead
deriving DecidableEq, Repr

/-- The state after reset (R28, R220). The zeros of CMD, IN_LEN, OUT_CAP, IVAL and the scratch state stand for
"no value": DESIGN CHOICE (log entries 2 and 20, unsafe); the marks in `written` say that no command may read them. -/
def State.reset : State :=
  { cfg := Config.standard
    cmd := 0#4
    inLen := 0
    outCap := 0
    ival := 0#64
    status := .ok
    outLen := 0
    phase := .idle
    ibuf := []
    obuf := []
    written := { cmd := false, inLen := false, outCap := false, ival := false }
    scratch := { acc := 0#13, nb := 0, rp := 0, wp := 0, k := 0, padSeen := false }
    draws := 1
    resetDraw := 0
    script := []
    reads := [] }

end Sys2Proof.Machine
end

