-- ==== Sys2Proof/WellFormed.lean ====
section
/-! DEFINITION. What is well formed: the parameters (00_scope.md R7), an operation with a mnemonic
(30_encoding.md R62, R63), a line of the host script (30_encoding.md R77). -/

namespace Sys2Proof

/-- The largest value of a length register, MAXLEN (R7). -/
def Config.maxLen (c : Config) : Nat := 2 ^ c.lenW - 1

/-- The constraints of R7: LEN_W ≥ 5 and both buffer sizes from 22 to MAXLEN. -/
def Config.wf (c : Config) : Bool :=
  decide (5 ≤ c.lenW) && decide (22 ≤ c.ibufSize) && decide (c.ibufSize ≤ c.maxLen) &&
    decide (22 ≤ c.obufSize) && decide (c.obufSize ≤ c.maxLen)

/-- Every constructor of Instr is a command word of the block (R64): there is no operand to be ill formed. -/
def Instr.wf (_ : Instr) : Bool := true

/-- The four codes that name no operation (R63). -/
def Instr.reserved (i : Instr) : Bool :=
  match i with
  | .rsv8 | .rsv9 | .rsv12 | .rsv13 => true
  | .enc32 | .dec32 | .enc64 | .dec64 | .enc32b | .dec32b | .enc64b | .dec64b
  | .encf16 | .decf16 | .encf8 | .decf8 => false

/-- A line the notation of R77 admits on a machine with these parameters: what it writes to IBUF fits IBUF, a
length fits a length register, a mnemonic is one of the twelve, a raw code is one of the four reserved ones. -/
def Machine.ScriptLine.wf (c : Config) : Machine.ScriptLine → Bool
  | .wrb bytes => decide (bytes.length ≤ c.ibufSize)
  | .wrt codes => decide (codes.length ≤ c.ibufSize)
  | .wrInLen n => decide (n ≤ c.maxLen)
  | .wrOutCap n => decide (n ≤ c.maxLen)
  | .wrIval _ => true
  | .command i => !i.reserved
  | .rawCommand w => (decodeCmd w).reserved
  | .rdStatus | .rdOutLen | .rdIval | .rdObuf => true

end Sys2Proof
end

