-- ==== Sys2Proof/Machine/Ops.lean ====
section
/-! DEFINITION. The named operations over buffers and registers: reading and writing elements, the end of a command
with its free values, taking a fault (60_exceptions.md R196), START (70_reset_and_hazards.md R224) and reset (R220).
There is no return from a fault (R201): the next command overwrites STATUS. -/

namespace Sys2Proof.Machine

/-! ## Buffers -/

/-- One element; none where nothing has written it (10_state.md R27). This is the one place that says what an
unlisted index reads as: no value (log entry 3). -/
def Memory.read (m : Memory) (i : Nat) : Option Byte :=
  match m with
  | [] => none
  | c :: rest => if c.1 = i then some c.2 else Memory.read rest i

/-- Write one element, keeping the indices rising. -/
def Memory.write (m : Memory) (i : Nat) (b : Byte) : Memory :=
  match m with
  | [] => [(i, b)]
  | c :: rest =>
    if i < c.1 then (i, b) :: c :: rest
    else if i = c.1 then (i, b) :: rest
    else c :: Memory.write rest i b

/-- `MemRead(space, i, n)` (00_scope.md R8); none where an element holds no value. -/
def Memory.readRange (m : Memory) (i : Nat) : Nat → Option (List Byte)
  | 0 => some []
  | n + 1 =>
    match Memory.read m i with
    | none => none
    | some b =>
      match Memory.readRange m (i + 1) n with
      | none => none
      | some bs => some (b :: bs)

/-- The buffer that holds exactly `bytes` from index `i` on. -/
def Memory.ofBytes (i : Nat) : List Byte → Memory
  | [] => []
  | b :: bs => (i, b) :: Memory.ofBytes (i + 1) bs

/-- Every listed index is at least `lo`, and the indices rise strictly. -/
def Memory.risingFrom (lo : Nat) : Memory → Bool
  | [] => true
  | c :: rest => decide (lo ≤ c.1) && Memory.risingFrom (c.1 + 1) rest

/-- The canonical form: strictly rising indices. An unlisted element holds no value, so no listed element equals
what an unlisted one reads as. -/
def Memory.wf (m : Memory) : Bool := Memory.risingFrom 0 m

/-! ## The end of a command -/

/-- `n` free bytes for the elements from index `i` on, at draw `draw` (log entries 6, 7). -/
def freeBytes (draw i : Nat) : Nat → List Byte
  | 0 => []
  | n + 1 => Config.freeByte draw i :: freeBytes draw (i + 1) n

/-- OBUF with `result` at its start and every element past it unspecified (10_state.md R21). -/
def obufWith (cfg : Config) (draw : Nat) (result : List Byte) : Memory :=
  Memory.ofBytes 0 (result ++ freeBytes draw result.length (cfg.obufSize - result.length))

/-- The end of a command: STATUS and OUT_LEN are written, PHASE becomes DONE (R17, R18, R19), OBUF holds the
result and is unspecified past it (R21), the scratch state is unspecified (R23). -/
def State.endCommand (s : State) (st : Status) (outLen : Nat) (result : List Byte) : State :=
  { s with
    status := st
    outLen := outLen
    phase := .done
    obuf := obufWith s.cfg s.draws result
    scratch := Config.freeScratch s.draws
    draws := s.draws + 1 }

/-- The end of a command that wrote `need` elements of OBUF (R130, R150). -/
def State.finish (s : State) (need : Nat) (result : List Byte) : State := s.endCommand .ok need result

/-- `raise <Kind>` (60_exceptions.md R196): STATUS takes the kind, OUT_LEN 0, PHASE DONE; all of OBUF is
unspecified; every operand is kept. -/
def State.raise (s : State) (k : FaultKind) : State := s.endCommand (.raised k) 0 []

/-- IVAL is written by a command (R16). -/
def State.setIval (s : State) (v : Word64) : State :=
  { s with ival := v, written := { s.written with ival := true } }

/-- The end of a DECF8 that succeeds (43_fixed_width.md R174): IVAL is the result, OUT_LEN is 8, OBUF is
unspecified. -/
def State.finishIval (s : State) (v : Word64) : State := (s.endCommand .ok 8 []).setIval v

/-- A DECF8 that faults: IVAL is unspecified afterwards (R196; log entry 8). -/
def State.raiseIval (s : State) (k : FaultKind) : State := (s.raise k).setIval (Config.freeIval s.draws)

/-! ## START and reset -/

/-- START (R224): PHASE becomes BUSY; STATUS, OUT_LEN and OBUF are unspecified until DONE (R17, R226; log entry 9).
IVAL keeps its value, which ENCF8 reads. -/
def State.begin (s : State) : State :=
  { s with
    status := Config.freeStatus s.draws
    outLen := Config.freeLen s.draws % 2 ^ s.cfg.lenW
    phase := .busy
    obuf := obufWith s.cfg s.draws []
    draws := s.draws + 1 }

/-- Reset of the block (R220): every register and buffer as after reset. The parameters, the host's script and
what it has read are not the block's; `draws` goes on, so that no free value comes back, and gives this reset a draw of its own (log entries 18, 23). -/
def State.hostReset (s : State) : State :=
  { State.reset with
    cfg := s.cfg
    draws := s.draws + 1
    resetDraw := s.draws
    script := s.script
    reads := s.reads }

/-! ## Host writes (10_state.md R26) -/

/-- `CMD <- c`. -/
def State.putCmd (s : State) (c : CmdWord) : State :=
  { s with cmd := c, written := { s.written with cmd := true } }

/-- `IN_LEN <- n`. -/
def State.putInLen (s : State) (n : Nat) : State :=
  { s with inLen := n, written := { s.written with inLen := true } }

/-- `OUT_CAP <- n`. -/
def State.putOutCap (s : State) (n : Nat) : State :=
  { s with outCap := n, written := { s.written with outCap := true } }

/-- `IBUF[i] <- b`. -/
def State.putIbuf (s : State) (i : Nat) (b : Byte) : State :=
  { s with ibuf := Memory.write s.ibuf i b }

/-- The script without its first action. -/
def State.withScript (s : State) (rest : List HostAction) : State := { s with script := rest }

/-- What the host has just read goes to the end of its record. -/
def State.record (s : State) (r : HostRead) : State := { s with reads := s.reads ++ [r] }

/-! ## The result, as a host reads it -/

/-- `OBUF[0..OUT_LEN)` (30_encoding.md R77, `RD OBUF`). -/
def State.result (s : State) : Option (List Byte) := Memory.readRange s.obuf 0 s.outLen

end Sys2Proof.Machine
end

