-- ==== Sys2Proof/Machine/Operands.lean ====
section
/-! DEFINITION. The operand forms: which registers and elements a command reads (20_memory.md R49, 30_encoding.md
R65), and the refusals of 10_state.md R27, 70_reset_and_hazards.md R223 and 40_datapath.md R121 when one of them
holds no value or is out of bounds. -/

namespace Sys2Proof.Machine

/-- The commands that read IN_LEN (R49, R65): all but ENCF16, ENCF8 and the reserved codes (log entry 11). -/
def readsInLen : Instr → Bool
  | .enc32 | .dec32 | .enc64 | .dec64 | .enc32b | .dec32b | .enc64b | .dec64b | .decf16 | .decf8 => true
  | .encf16 | .encf8 | .rsv8 | .rsv9 | .rsv12 | .rsv13 => false

/-- The commands that read OUT_CAP (R15): those with MODE = BUF. -/
def readsOutCap (i : Instr) : Bool := i.mode == .buf

/-- The commands that read IVAL (R16): ENCF8. -/
def readsIval : Instr → Bool
  | .encf8 => true
  | .enc32 | .dec32 | .enc64 | .dec64 | .enc32b | .dec32b | .enc64b | .dec64b | .encf16 | .decf16 | .decf8
  | .rsv8 | .rsv9 | .rsv12 | .rsv13 => false

/-- How many elements of IBUF, from index 0, a command reads when IN_LEN is `n` (R49): a fixed-width decode reads
its text only when the length is right (90_conflicts.md C8). -/
def inputCount (i : Instr) (n : Nat) : Nat :=
  match i with
  | .enc32 | .dec32 | .enc64 | .dec64 | .enc32b | .dec32b | .enc64b | .dec64b => n
  | .encf16 => 16
  | .decf16 => if n = 22 then 22 else 0
  | .decf8 => if n = 11 then 11 else 0
  | .encf8 | .rsv8 | .rsv9 | .rsv12 | .rsv13 => 0

/-- The commands before whose START IN_LEN and IBUF[0..IN_LEN) must have been written: all but ENCF16 and ENCF8
(R223), the reserved codes included (log entry 11). -/
def startNeedsInput : Instr → Bool
  | .enc32 | .dec32 | .enc64 | .dec64 | .enc32b | .dec32b | .enc64b | .dec64b | .decf16 | .decf8
  | .rsv8 | .rsv9 | .rsv12 | .rsv13 => true
  | .encf16 | .encf8 => false

/-- How many elements of IBUF, from index 0, must have been written before START when IN_LEN is `n` (R223). -/
def startCount (i : Instr) (n : Nat) : Nat :=
  match i with
  | .enc32 | .dec32 | .enc64 | .dec64 | .enc32b | .dec32b | .enc64b | .dec64b | .decf16 | .decf8
  | .rsv8 | .rsv9 | .rsv12 | .rsv13 => n
  | .encf16 => 16
  | .encf8 => 0

/-- IN_LEN as a command reads it (R27, R121, R229). -/
def State.readInLen (s : State) : Except Refusal Nat :=
  if s.written.inLen then
    if s.inLen ≤ s.cfg.ibufSize then .ok s.inLen else .error .inLenTooLarge
  else .error (.unwrittenRegister .inLen)

/-- OUT_CAP as a command reads it (R27, R121, R228). -/
def State.readOutCap (s : State) : Except Refusal Nat :=
  if s.written.outCap then
    if s.outCap ≤ s.cfg.obufSize then .ok s.outCap else .error .outCapTooLarge
  else .error (.unwrittenRegister .outCap)

/-- IVAL as a command reads it (R27). -/
def State.readIval (s : State) : Except Refusal Word64 :=
  if s.written.ival then .ok s.ival else .error (.unwrittenRegister .ival)

/-- `MemRead(IBUF, 0, n)` (R27). -/
def State.readIbuf (s : State) (n : Nat) : Except Refusal (List Byte) :=
  match Memory.readRange s.ibuf 0 n with
  | some bs => .ok bs
  | none => .error .unwrittenElement

/-- `IBUF[0..IN_LEN)`: the bytes of an encode command, the text of a decode command (R65). -/
def State.readInput (s : State) : Except Refusal (List Byte) :=
  match s.readInLen with
  | .error r => .error r
  | .ok n => s.readIbuf n

/-- The command CMD names (30_encoding.md R64), where it has been written (R27, R223). -/
def State.command (s : State) : Except Refusal Instr :=
  if s.written.cmd then .ok (decodeCmd s.cmd) else .error (.unwrittenRegister .cmd)

/-- The input the list of R223 asks for before START, within the bound of R229. What R223 asks for beside it (OUT_CAP,
IVAL, `IBUF[0..16)` for ENCF16) is what the command itself reads. -/
def State.startInput (s : State) (i : Instr) : Except Refusal Unit :=
  if startNeedsInput i then
    match s.readInput with
    | .error r => .error r
    | .ok _ => .ok ()
  else .ok ()

/-- The same for the command CMD names. -/
def State.startOperands (s : State) : Except Refusal Unit :=
  match s.command with
  | .error r => .error r
  | .ok i => s.startInput i

end Sys2Proof.Machine
end

