-- ==== Sys2Proof/Machine/Flags.lean ====
section
/-! DEFINITION. STATUS, the block's only flag (10_state.md R25): its codes (60_exceptions.md R191), the codes of
PHASE (10_state.md R19), and the checks that decide which fault a command reports (R192 to R195, R199). -/

namespace Sys2Proof.Machine

/-- The code of a fault kind (R191). -/
def faultCode : FaultKind → BitVec 3
  | .invalidCharacter => 1#3
  | .lengthMismatch => 2#3
  | .bufferTooSmall => 3#3
  | .reservedCommand => 4#3

/-- The value a host reads from STATUS (R17, R191). -/
def statusCode : Status → BitVec 3
  | .ok => 0#3
  | .raised k => faultCode k

/-- The value a host reads from PHASE (R19). -/
def phaseCode : Phase → BitVec 2
  | .idle => 0#2
  | .busy => 1#2
  | .done => 2#2

/-- The capacity check of a general command whose output takes `need` elements (40_datapath.md R120, R121): for a
buffer-supplied form the fault it raises, if any; for a fresh-result form a refusal where OBUF is too small. -/
def State.capacity (s : State) (checked : Bool) (need : Nat) : Except Refusal (Option FaultKind) :=
  if checked then
    match s.readOutCap with
    | .error r => .error r
    | .ok cap => .ok (if cap < need then some .bufferTooSmall else none)
  else if s.cfg.obufSize < need then .error .needTooLarge
  else .ok none

/-- A decode ends with a fault or with its bytes. -/
abbrev Decoded := Except FaultKind (List Byte)

/-- Validate, then unpack (42_decode_general.md R150): `k` characters of `t`. -/
def decodeText (codec : Codec) (t : List Byte) (k : Nat) : Decoded :=
  match validate codec t k with
  | none => .error .invalidCharacter
  | some s => .ok (unpack (width codec) s)

/-- DECODE_FIXED (43_fixed_width.md R170): the length, before any character is read, then every character as a
symbol (R175), then the general unpacker. -/
def State.decodeFixed (s : State) (p : FixedWidth) : Except Refusal Decoded :=
  match s.readInLen with
  | .error r => .error r
  | .ok n =>
    if n = p.fc then
      match s.readIbuf p.fc with
      | .error r => .error r
      | .ok t => .ok (decodeText .b64u t p.fc)
    else .ok (.error .lengthMismatch)

end Sys2Proof.Machine
end

