-- ==== Sys2Proof/Machine/DecodeGeneral.lean ====
section
/-! DEFINITION. The general decode commands DEC32, DEC64, DEC32B, DEC64B (42_decode_general.md). -/

namespace Sys2Proof.Machine

/-- DECODE_GENERAL(codec, check) (R150): trim, capacity, validate, unpack, in that order (60_exceptions.md R199;
log entry 10). -/
def decodeGeneral (codec : Codec) (check : Bool) (s : State) : Host.Outcome State Fault Refusal :=
  match s.readInput with
  | .error r => .refused r
  | .ok t =>
    match s.capacity check (decLen (width codec) (trim t)) with
    | .error r => .refused r
    | .ok (some k) => .next (s.raise k)
    | .ok none =>
      match decodeText codec t (trim t) with
      | .error k => .next (s.raise k)
      | .ok b => .next (s.finish (decLen (width codec) (trim t)) b)

/-- DEC32 (R151). -/
def execDec32 (s : State) : Host.Outcome State Fault Refusal := decodeGeneral .b32 false s

/-- DEC64 (R152). -/
def execDec64 (s : State) : Host.Outcome State Fault Refusal := decodeGeneral .b64u false s

/-- DEC32B (R153). -/
def execDec32b (s : State) : Host.Outcome State Fault Refusal := decodeGeneral .b32 true s

/-- DEC64B (R154). -/
def execDec64b (s : State) : Host.Outcome State Fault Refusal := decodeGeneral .b64u true s

end Sys2Proof.Machine
end

