-- ==== Sys2Proof/Machine/EncodeGeneral.lean ====
section
/-! DEFINITION. The general encode commands ENC32, ENC64, ENC32B, ENC64B (41_encode_general.md). -/

namespace Sys2Proof.Machine

/-- ENCODE_GENERAL(codec, check) (R130). -/
def encodeGeneral (codec : Codec) (check : Bool) (s : State) : Host.Outcome State Fault Refusal :=
  match s.readInput with
  | .error r => .refused r
  | .ok b =>
    match s.capacity check (paddedLen codec b.length) with
    | .error r => .refused r
    | .ok (some k) => .next (s.raise k)
    | .ok none => .next (s.finish (paddedLen codec b.length) (canonicalText codec b))

/-- ENC32 (R131). -/
def execEnc32 (s : State) : Host.Outcome State Fault Refusal := encodeGeneral .b32 false s

/-- ENC64 (R132). -/
def execEnc64 (s : State) : Host.Outcome State Fault Refusal := encodeGeneral .b64u false s

/-- ENC32B (R133). -/
def execEnc32b (s : State) : Host.Outcome State Fault Refusal := encodeGeneral .b32 true s

/-- ENC64B (R134). -/
def execEnc64b (s : State) : Host.Outcome State Fault Refusal := encodeGeneral .b64u true s

end Sys2Proof.Machine
end

