-- ==== Sys2Proof/Machine/FixedWidth.lean ====
section
/-! DEFINITION. The fixed-width commands ENCF16, DECF16, ENCF8, DECF8 (43_fixed_width.md). -/

namespace Sys2Proof.Machine

/-- ENCODE_FIXED(FB, FC, v) (R170): FC symbols, no padding character. -/
def State.encodeFixed (s : State) (p : FixedWidth) (v : List Byte) : State := s.finish p.fc (fixedText v)

/-- ENCF16 (R171). IN_LEN is ignored. -/
def execEncf16 (s : State) : Host.Outcome State Fault Refusal :=
  match s.readIbuf fixed16.fb with
  | .error r => .refused r
  | .ok v => .next (s.encodeFixed fixed16 v)

/-- DECF16 (R172). -/
def execDecf16 (s : State) : Host.Outcome State Fault Refusal :=
  match s.decodeFixed fixed16 with
  | .error r => .refused r
  | .ok (.error k) => .next (s.raise k)
  | .ok (.ok b) => .next (s.finish 16 b)

/-- ENCF8 (R173). IN_LEN and IBUF are ignored. -/
def execEncf8 (s : State) : Host.Outcome State Fault Refusal :=
  match s.readIval with
  | .error r => .refused r
  | .ok v => .next (s.encodeFixed fixed8 (le64 v))

/-- DECF8 (R174). -/
def execDecf8 (s : State) : Host.Outcome State Fault Refusal :=
  match s.decodeFixed fixed8 with
  | .error r => .refused r
  | .ok (.error k) => .next (s.raiseIval k)
  | .ok (.ok b) => .next (s.finishIval (unle64 b))

end Sys2Proof.Machine
end

