-- ==== Sys2Proof/Machine/Reserved.lean ====
section
/-! DEFINITION. The four reserved command codes (30_encoding.md R63): each raises ReservedCommand (60_exceptions.md
R195, log entry 19), reading no buffer and no operand. -/

namespace Sys2Proof.Machine

/-- A reserved command (R63, R195). -/
def reservedCommand (s : State) : Host.Outcome State Fault Refusal := .next (s.raise .reservedCommand)

/-- Code 8 (R63). -/
def execRsv8 (s : State) : Host.Outcome State Fault Refusal := reservedCommand s

/-- Code 9 (R63). -/
def execRsv9 (s : State) : Host.Outcome State Fault Refusal := reservedCommand s

/-- Code 12 (R63). -/
def execRsv12 (s : State) : Host.Outcome State Fault Refusal := reservedCommand s

/-- Code 13 (R63). -/
def execRsv13 (s : State) : Host.Outcome State Fault Refusal := reservedCommand s

end Sys2Proof.Machine
end

