-- ==== Sys2Proof/Machine/Dispatch.lean ====
section
/-! DEFINITION. One arm per command. -/

namespace Sys2Proof.Machine

/-- The meaning of a command (30_encoding.md R62, R63). -/
def exec (i : Instr) (s : State) : Host.Outcome State Fault Refusal :=
  match i with
  | .enc32 => Sys2Proof.Machine.execEnc32 s
  | .dec32 => Sys2Proof.Machine.execDec32 s
  | .enc64 => Sys2Proof.Machine.execEnc64 s
  | .dec64 => Sys2Proof.Machine.execDec64 s
  | .enc32b => Sys2Proof.Machine.execEnc32b s
  | .dec32b => Sys2Proof.Machine.execDec32b s
  | .enc64b => Sys2Proof.Machine.execEnc64b s
  | .dec64b => Sys2Proof.Machine.execDec64b s
  | .rsv8 => Sys2Proof.Machine.execRsv8 s
  | .rsv9 => Sys2Proof.Machine.execRsv9 s
  | .encf16 => Sys2Proof.Machine.execEncf16 s
  | .decf16 => Sys2Proof.Machine.execDecf16 s
  | .rsv12 => Sys2Proof.Machine.execRsv12 s
  | .rsv13 => Sys2Proof.Machine.execRsv13 s
  | .encf8 => Sys2Proof.Machine.execEncf8 s
  | .decf8 => Sys2Proof.Machine.execDecf8 s

end Sys2Proof.Machine
end

