-- ==== Sys2Proof/Machine/HostActions.lean ====
section
/-! DEFINITION. What each host action does to the block: access rights (10_state.md R26), START (70_reset_and_hazards.md
R223, R224, R227, R229), the hazards while BUSY (R225, R226), reset (R220), the expansion of a script line
(30_encoding.md R77), and the preparation of a command word for the next step (log entry 14). -/

namespace Sys2Proof.Machine

/-- The command CMD names runs to its end (R224). -/
def runCommand (s : State) : Host.Outcome State Fault Refusal :=
  match s.command with
  | .error r => .refused r
  | .ok i => exec i s

/-- A host write of an operand: refused while BUSY (R225). -/
def State.hostWrite (s s' : State) : Host.Outcome State Fault Refusal :=
  match s.phase with
  | .busy => .refused .hostWriteWhileBusy
  | .idle => .next s'
  | .done => .next s'

/-- A host write of a length register: a length is below `2 ^ LEN_W` (R14, R15; log entry 16). -/
def State.hostWriteLen (s : State) (n : Nat) (s' : State) : Host.Outcome State Fault Refusal :=
  if n < 2 ^ s.cfg.lenW then s.hostWrite s' else .refused .lengthTooWide

/-- A host write of one element of IBUF; an index at or past IBUF_SIZE names none (20_memory.md R41). -/
def State.hostWriteIbuf (s : State) (i : Nat) (b : Byte) : Host.Outcome State Fault Refusal :=
  if i < s.cfg.ibufSize then s.hostWrite (s.putIbuf i b) else .fault (.noSuchElement .ibuf i)

/-- START (R224), refused while BUSY (R227), where something R223 lists has never been written or IN_LEN > IBUF_SIZE
(R229), and where the command it names would be refused (R27, R121; log entry 13). -/
def State.hostStart (s : State) : Host.Outcome State Fault Refusal :=
  match s.phase with
  | .busy => .refused .startWhileBusy
  | .idle | .done =>
    match s.startOperands with
    | .error r => .refused r
    | .ok () =>
      match runCommand s with
      | .refused r => .refused r
      | .fault f => .fault f
      | .next _ => .next s.begin

/-- Wait for PHASE = DONE (R77): while BUSY the command runs to its end; at DONE the wait is over; at IDLE no
command has been started and the host goes on waiting. -/
def State.hostAwait (s : State) : Host.Outcome State Fault Refusal :=
  match s.phase with
  | .busy => runCommand s
  | .done => .next s
  | .idle => .next (s.withScript (.awaitDone :: s.script))

/-- The number a host reads from a register. One of the four that reset leaves unspecified (R28) reads, while nothing has
written it, as a free value, the same at every read until the next reset (20_memory.md R50; log entry 18). -/
def State.regValue (s : State) : HostReg → Nat
  | .cmd => (if s.written.cmd then s.cmd else (Config.freeReset s.resetDraw).cmd).toNat
  | .inLen => if s.written.inLen then s.inLen else (Config.freeReset s.resetDraw).inLen % 2 ^ s.cfg.lenW
  | .outCap => if s.written.outCap then s.outCap else (Config.freeReset s.resetDraw).outCap % 2 ^ s.cfg.lenW
  | .ival => (if s.written.ival then s.ival else (Config.freeReset s.resetDraw).ival).toNat
  | .status => (statusCode s.status).toNat
  | .outLen => s.outLen
  | .phase => (phaseCode s.phase).toNat

/-- What a host reads from element `i` of OBUF: what a command left there, and a free value before the first one (R26,
R28; log entry 18). -/
def State.obufValue (s : State) (i : Nat) : Byte := (Memory.read s.obuf i).getD (Config.freeByte s.resetDraw i)

/-- What a host read gives while PHASE is not BUSY: every register and every element of OBUF may be read (R26). -/
def State.readTarget (s : State) : ReadTarget → Host.Outcome HostRead Fault Refusal
  | .reg r => .next (.reg r (s.regValue r))
  | .obuf i => if i < s.cfg.obufSize then .next (.obuf i (s.obufValue i)) else .fault (.noSuchElement .obuf i)
  | .result => .next (.result ((List.range s.outLen).map s.obufValue))

/-- A host read changes nothing in the block (20_memory.md R50). While BUSY only PHASE may be read (R226). -/
def State.hostRead (s : State) (t : ReadTarget) : Host.Outcome State Fault Refusal :=
  if s.phase = .busy ∧ t ≠ .reg .phase then .refused .hostReadWhileBusy
  else
    match s.readTarget t with
    | .next r => .next (s.record r)
    | .fault f => .fault f
    | .refused r => .refused r

/-- One action of the host, on the state whose script has already lost it. -/
def hostAction (a : HostAction) (s : State) : Host.Outcome State Fault Refusal :=
  match a with
  | .writeCmd c => s.hostWrite (s.putCmd c)
  | .writeInLen n => s.hostWriteLen n (s.putInLen n)
  | .writeOutCap n => s.hostWriteLen n (s.putOutCap n)
  | .writeIval v => s.hostWrite (s.setIval v)
  | .writeIbuf i b => s.hostWriteIbuf i b
  | .start => s.hostStart
  | .awaitDone => s.hostAwait
  | .read t => s.hostRead t
  | .reset => .next s.hostReset

/-- With no host action left the block finishes the command it is running, or waits for a START (R220, R231). -/
def idleStep (s : State) : Host.Outcome State Fault Refusal :=
  match s.phase with
  | .busy => runCommand s
  | .idle => .next s
  | .done => .next s

/-! ## Script lines -/

/-- The writes of `WRB` and `WRT`: the elements from index `i` on. -/
def writeElements (i : Nat) : List Byte → List HostAction
  | [] => []
  | b :: bs => .writeIbuf i b :: writeElements (i + 1) bs

/-- A `<MNEMONIC>` line: write the code to CMD, give START, wait for DONE (R77). -/
def commandActions (c : CmdWord) : List HostAction := [.writeCmd c, .start, .awaitDone]

/-- A line of the host script as elementary actions (R77). -/
def ScriptLine.actions : ScriptLine → List HostAction
  | .wrb bytes => writeElements 0 bytes ++ [.writeInLen bytes.length]
  | .wrt codes => writeElements 0 codes ++ [.writeInLen codes.length]
  | .wrInLen n => [.writeInLen n]
  | .wrOutCap n => [.writeOutCap n]
  | .wrIval v => [.writeIval v]
  | .command i => commandActions (encode i)
  | .rawCommand c => commandActions c
  | .rdStatus => [.read (.reg .status)]
  | .rdOutLen => [.read (.reg .outLen)]
  | .rdIval => [.read (.reg .ival)]
  | .rdObuf => [.read .result]

/-- A host script: its lines one after another. -/
def scriptActions : List ScriptLine → List HostAction
  | [] => []
  | l :: ls => l.actions ++ scriptActions ls

/-- A script given to the host, to follow what it has still to do. -/
def State.load (s : State) (lines : List ScriptLine) : State :=
  s.withScript (s.script ++ scriptActions lines)

/-! ## Preparing one command word (log entry 14) -/

/-- The host's duty of R223 for elements: every element below `n` that holds no value is written. -/
def Memory.supply (m : Memory) : Nat → Memory
  | 0 => m
  | n + 1 =>
    match Memory.read (Memory.supply m n) n with
    | some _ => Memory.supply m n
    | none => Memory.write (Memory.supply m n) n 0#8

/-- The host's duty of R223 before START: everything its list names has been written. -/
def State.supplyOperands (s : State) (i : Instr) : State :=
  { s with
    written :=
      { s.written with
        inLen := s.written.inLen || startNeedsInput i
        outCap := s.written.outCap || readsOutCap i
        ival := s.written.ival || readsIval i }
    ibuf := Memory.supply s.ibuf (startCount i s.inLen) }

/-- The command word `c` written and its operands supplied, START given, the host waiting for DONE (R77, R223,
R224): the next step runs the command. -/
def State.readyToRun (s : State) (c : CmdWord) : State :=
  { (s.putCmd c).supplyOperands (decodeCmd c) with
    phase := .busy
    script := .awaitDone :: s.script }

end Sys2Proof.Machine
end

