-- ==== Sys2Proof/Machine/Step.lean ====
section
/-! DEFINITION. One step: the host's next action, or, when it has none left, the block by itself. -/

namespace Sys2Proof.Machine

/-- One step of the machine (log entries 1, 15). A command runs in the step in which PHASE is BUSY and the host
waits for DONE or has nothing more to do. -/
def step (s : State) : Host.Outcome State Fault Refusal :=
  match s.script with
  | [] => idleStep s
  | a :: rest => hostAction a (s.withScript rest)

/-- `s` with the command word `w` where the next step takes its command from: CMD, started, its operands written
(log entry 14). -/
def State.withFetchWord (s : State) (_nbits w : Nat) : State := s.readyToRun (BitVec.ofNat 4 w)

end Sys2Proof.Machine
end

