-- ==== Sys2Proof/Machine/System.lean ====
section
/-! DEFINITION. Several instances of the block (20_memory.md R57, 60_exceptions.md R210): each has its own registers,
buffers and scratch, and nothing but the constant tables is shared (log entry 21). -/

namespace Sys2Proof.Machine

/-- The instances of a system, by number; N_INSTANCES is the list's length (00_scope.md R7). -/
abbrev System := List State

/-- The constraints of R7 on a system whose instances have the parameters `c`: `c` is well formed and N_INSTANCES ≥ 1. -/
def System.wf (c : Config) (sys : System) : Bool :=
  c.wf && decide (1 ≤ sys.length) && sys.all fun s => decide (s.cfg = c)

/-- `n` instances after reset, each from its own (60_exceptions.md R210). -/
def System.reset (c : Config) (n : Nat) : System := List.replicate n { State.reset with cfg := c }

/-- The step of instance `k`. The other instances are not looked at. -/
def System.step (sys : System) (k : Nat) : Host.Outcome System Fault Refusal :=
  match sys[k]? with
  | none => .next sys
  | some s =>
    match Sys2Proof.Machine.step s with
    | .next t => .next (sys.set k t)
    | .fault f => .fault f
    | .refused r => .refused r

end Sys2Proof.Machine
end

