-- ==== Sys2Proof/Safety.lean ====
section
/-! DEFINITION. The terms the claims use: what a state presents to a command, when a command may run or be started
(70_reset_and_hazards.md R223, 40_datapath.md R121), which fault a command may report (60_exceptions.md R198), and the invariant of the machine. -/

namespace Sys2Proof.Machine

/-- `IBUF[0..IN_LEN)` is `b`: IN_LEN has been written, lies within IBUF, and each element holds a value (R223, R229). -/
def State.presents (s : State) (b : List Byte) : Prop :=
  s.written.inLen = true ∧ s.inLen = b.length ∧ s.inLen ≤ s.cfg.ibufSize ∧
    Memory.readRange s.ibuf 0 b.length = some b

/-- OUT_CAP has been written and lies within OBUF (R223, R228). -/
def State.offersCapacity (s : State) : Prop := s.written.outCap = true ∧ s.outCap ≤ s.cfg.obufSize

/-- The output size a general command computes for the input `b` (R120): PADDEDLEN of its length for an encode,
DECLEN of the effective symbol count for a decode. -/
def neededLen (i : Instr) (b : List Byte) : Nat :=
  match i.dir with
  | .encode => paddedLen i.codec b.length
  | .decode => decLen (width i.codec) (trim b)

/-- Everything command `i` reads holds a value and is within bounds (R27, R49, R121, R223, R228, R229). -/
structure State.Ready (s : State) (i : Instr) : Prop where
  inLenWritten : readsInLen i = true → s.written.inLen = true
  inLenFits : readsInLen i = true → s.inLen ≤ s.cfg.ibufSize
  inputWritten : ∀ j, j < inputCount i s.inLen → Memory.read s.ibuf j ≠ none
  ivalWritten : readsIval i = true → s.written.ival = true
  capacityOffered : readsOutCap i = true → s.offersCapacity
  freshFits : i.mode = .gen → ∀ b, s.presents b → neededLen i b ≤ s.cfg.obufSize

/-- Everything R223 lists has been written and is within bounds (R121, R228, R229), so that START with CMD naming `i`
is accepted: for all but ENCF16 and ENCF8 that is IN_LEN and `IBUF[0..IN_LEN)`, more than `Ready` asks of a fixed-width
decode of the wrong length and of a reserved code (log entry 11). -/
structure State.Startable (s : State) (i : Instr) : Prop where
  inLenWritten : startNeedsInput i = true → s.written.inLen = true
  inLenFits : startNeedsInput i = true → s.inLen ≤ s.cfg.ibufSize
  inputWritten : ∀ j, j < startCount i s.inLen → Memory.read s.ibuf j ≠ none
  ivalWritten : readsIval i = true → s.written.ival = true
  capacityOffered : readsOutCap i = true → s.offersCapacity
  freshFits : i.mode = .gen → ∀ b, s.presents b → neededLen i b ≤ s.cfg.obufSize

/-- A character with its case folded: an upper-case letter as the lower-case one, every other code as it is
(30_encoding.md R66, R69). -/
def foldCase (c : Byte) : Byte := if 0x41#8 ≤ c ∧ c ≤ 0x5A#8 then c + 0x20#8 else c

/-- Which command may report which fault: the table of R198. -/
def mayRaise : Instr → FaultKind → Bool
  | .enc32, _ | .enc64, _ | .encf16, _ | .encf8, _ => false
  | .enc32b, k | .enc64b, k => k == .bufferTooSmall
  | .dec32, k | .dec64, k => k == .invalidCharacter
  | .dec32b, k | .dec64b, k => k == .invalidCharacter || k == .bufferTooSmall
  | .decf16, k | .decf8, k => k == .invalidCharacter || k == .lengthMismatch
  | .rsv8, k | .rsv9, k | .rsv12, k | .rsv13, k => k == .reservedCommand

/-- The state of a step, where it answers one. -/
def nextState (o : Host.Outcome State Fault Refusal) : Option State :=
  match o with
  | .next t => some t
  | .fault _ => none
  | .refused _ => none

/-- Command `i` answers a next state at `s`, with STATUS `OK`, PHASE `DONE`, OUT_LEN the length of `r`, and
`OBUF[0..OUT_LEN)` holding `r`. -/
def Yields (i : Instr) (s : State) (r : List Byte) : Prop :=
  ∃ t, exec i s = .next t ∧ t.status = .ok ∧ t.phase = .done ∧ t.outLen = r.length ∧ t.result = some r

/-- Command `i` answers a next state at `s`, with the fault `k` in STATUS, PHASE `DONE` and OUT_LEN 0
(60_exceptions.md R196). -/
def Raises (i : Instr) (s : State) (k : FaultKind) : Prop :=
  ∃ t, exec i s = .next t ∧ t.status = .raised k ∧ t.phase = .done ∧ t.outLen = 0

/-- Two states hold the same operands (10_state.md R24): the parameters, CMD, IN_LEN, OUT_CAP, IVAL, IBUF, and
which of them have been written. -/
def SameOperands (s u : State) : Prop :=
  u.cfg = s.cfg ∧ u.cmd = s.cmd ∧ u.inLen = s.inLen ∧ u.outCap = s.outCap ∧ u.ival = s.ival ∧ u.ibuf = s.ibuf ∧
    u.written = s.written

/-- What every step keeps. -/
structure State.Inv (s : State) : Prop where
  /-- The parameters meet R7. -/
  cfgWf : s.cfg.wf = true
  /-- IBUF is in canonical form. -/
  ibufWf : Memory.wf s.ibuf = true
  /-- OBUF is in canonical form. -/
  obufWf : Memory.wf s.obuf = true
  /-- No element past IBUF's end (20_memory.md R41). -/
  ibufIn : ∀ i, Memory.read s.ibuf i ≠ none → i < s.cfg.ibufSize
  /-- No element past OBUF's end (20_memory.md R41). -/
  obufIn : ∀ i, Memory.read s.obuf i ≠ none → i < s.cfg.obufSize
  /-- IN_LEN is a value of its register (10_state.md R14). -/
  inLenIn : s.inLen < 2 ^ s.cfg.lenW
  /-- OUT_CAP is a value of its register (10_state.md R15). -/
  outCapIn : s.outCap < 2 ^ s.cfg.lenW
  /-- OUT_LEN is a value of its register (10_state.md R18). -/
  outLenIn : s.outLen < 2 ^ s.cfg.lenW
  /-- Before the first command STATUS and OUT_LEN are as after reset, and OBUF holds no value (10_state.md R28). -/
  atIdle : s.phase = .idle → s.status = .ok ∧ s.outLen = 0 ∧ s.obuf = []
  /-- At DONE the result lies within OBUF, whose every element holds a value. -/
  atDone : s.phase = .done → s.outLen ≤ s.cfg.obufSize ∧ ∀ i, i < s.cfg.obufSize → Memory.read s.obuf i ≠ none
  /-- After a fault OUT_LEN is 0 (R18, 60_exceptions.md R196). -/
  afterFault : s.phase = .done → s.status ≠ .ok → s.outLen = 0
  /-- A command that is running has its operands: its START was accepted (R223, R229), and it is not refused. -/
  atBusy : s.phase = .busy → s.startOperands = .ok () ∧ ∀ r, runCommand s ≠ .refused r

end Sys2Proof.Machine
end

