-- ==== Sys2Proof/Certificates/Slice0/Obligations.lean ====
section
/-! DEFINITION. The statements for the provers, one definition each. OBLIGATIONS.json lists them. -/

open Sys2Proof Sys2Proof.Machine

/-! ## Encoding -/

/-- The sixteen command words of 30_encoding.md R62 and R63, as opcode_table.json writes them; every byte with a bit
above CMD, no byte, and every longer sequence is no command word and is rejected by name (log entry 22). -/
def Obligations.CommandWordsDecode : Prop :=
  [0b0000, 0b0001, 0b0010, 0b0011, 0b0100, 0b0101, 0b0110, 0b0111].map (decodeTableWord 8) =
      [some .enc32, some .dec32, some .enc64, some .dec64, some .enc32b, some .dec32b, some .enc64b, some .dec64b] ∧
    [0b1000, 0b1001, 0b1010, 0b1011, 0b1100, 0b1101, 0b1110, 0b1111].map (decodeTableWord 8) =
      [some .rsv8, some .rsv9, some .encf16, some .decf16, some .rsv12, some .rsv13, some .encf8, some .decf8] ∧
    (∀ b : Byte, 16 ≤ b.toNat → decode [b] = .error .notFourBits ∧ decodeTableWord 8 b.toNat = none) ∧
    decode [] = .error .noWord ∧ ∀ (b c : Byte) (rest : List Byte), decode (b :: c :: rest) = .error .tooLong

/-- Decode and encode agree in both directions on the sixteen words (R64), in the register and in bytes. -/
def Obligations.DecodeAndEncodeAgree : Prop :=
  (∀ i : Instr, decodeCmd (encode i) = i ∧ decode (encodeBytes i) = .ok i) ∧ ∀ c : CmdWord, encode (decodeCmd c) = c

/-- A code is reserved exactly when MODE is a fixed width and CODEC is B32 (R60, R63): CMD[3] = 1 and CMD[1] = 0. -/
def Obligations.ReservedCodesAreFixedWidthB32 : Prop :=
  ∀ c : CmdWord, (decodeCmd c).reserved = (c.getLsbD 3 && !c.getLsbD 1)

/-! ## Reset, the invariant, steps -/

/-- The state after reset (10_state.md R28, 70_reset_and_hazards.md R220), in the values the spec gives: PHASE, STATUS,
OUT_LEN, and nothing written, element by element. -/
def Obligations.ResetLeavesIdleAndNothingWritten : Prop :=
  State.reset.phase = .idle ∧ State.reset.status = .ok ∧ State.reset.outLen = 0 ∧
    (∀ i, Memory.read State.reset.ibuf i = none ∧ Memory.read State.reset.obuf i = none) ∧
    State.reset.written.cmd = false ∧ State.reset.written.inLen = false ∧ State.reset.written.outCap = false ∧
    State.reset.written.ival = false

/-- The invariant holds after reset. -/
def Obligations.InvariantAtReset : Prop := State.reset.Inv

/-- Every step keeps the invariant: buffers canonical and within their sizes, lengths within their registers, OUT_LEN 0
after a fault, the whole of OBUF defined at DONE, a running command one whose START was accepted and that is not refused. -/
def Obligations.EveryStepKeepsInvariant : Prop :=
  ∀ s t : State, s.Inv → step s = .next t → t.Inv

/-- While PHASE is BUSY, a step in which the host waits (or has nothing left to do) is the command CMD decodes to; and
the step of a fetched word is the command that word decodes to (log entries 1, 14). -/
def Obligations.StepRunsDecodedCommand : Prop :=
  (∀ (s : State) (i : Instr), s.phase = .busy → s.written.cmd = true → decodeCmd s.cmd = i →
    (s.script = [] → step s = exec i s) ∧
    (∀ rest, s.script = .awaitDone :: rest → step s = exec i (s.withScript rest))) ∧
  ∀ (s : State) (w : Nat) (i : Instr), decodeTableWord 8 w = some i →
    step (s.withFetchWord 8 w) = exec i ((s.withFetchWord 8 w).withScript s.script)

/-- START while PHASE is IDLE or DONE, with everything R223 lists written and within bounds, takes PHASE to BUSY and keeps
every operand (R224; 10_state.md R13 to R16, R24). `Startable` takes the whole list of R223, for a fixed-width decode of
any length and for the reserved codes too (log entries 11, 12, 13). -/
def Obligations.StartTakesPhaseToBusy : Prop :=
  ∀ (s : State) (rest : List HostAction), s.script = .start :: rest → s.phase ≠ .busy → s.written.cmd = true →
    s.Startable (decodeCmd s.cmd) →
    ∃ t, step s = .next t ∧ t.phase = .busy ∧ SameOperands s t ∧ t.script = rest ∧ t.reads = s.reads

/-- START is refused while BUSY (R227), with CMD never written, and with anything R223 lists never written or out of
bounds (R121, R228, R229; log entries 11, 12, 13). -/
def Obligations.StartRefusals : Prop :=
  ∀ (s : State) (rest : List HostAction), s.script = .start :: rest →
    (s.phase = .busy → step s = .refused .startWhileBusy) ∧
    (s.phase ≠ .busy → s.written.cmd = false → step s = .refused (.unwrittenRegister .cmd)) ∧
    (s.phase ≠ .busy → s.written.cmd = true → ¬ s.Startable (decodeCmd s.cmd) → ∃ r, step s = .refused r)

/-- The hazards of R225 and R226: while PHASE is BUSY every operand write the registers and IBUF could take is refused,
and so is every read but that of PHASE, which gives BUSY (1) and changes nothing in the block. -/
def Obligations.HazardsWhileBusy : Prop :=
  ∀ (s : State) (rest : List HostAction), s.phase = .busy →
    (∀ c, s.script = .writeCmd c :: rest → step s = .refused .hostWriteWhileBusy) ∧
    (∀ n, n < 2 ^ s.cfg.lenW → s.script = .writeInLen n :: rest → step s = .refused .hostWriteWhileBusy) ∧
    (∀ n, n < 2 ^ s.cfg.lenW → s.script = .writeOutCap n :: rest → step s = .refused .hostWriteWhileBusy) ∧
    (∀ v, s.script = .writeIval v :: rest → step s = .refused .hostWriteWhileBusy) ∧
    (∀ i b, i < s.cfg.ibufSize → s.script = .writeIbuf i b :: rest → step s = .refused .hostWriteWhileBusy) ∧
    (∀ x, x ≠ .reg .phase → s.script = .read x :: rest → step s = .refused .hostReadWhileBusy) ∧
    (s.script = .read (.reg .phase) :: rest → step s = .next ((s.withScript rest).record (.reg .phase 1)))

/-- Every started command ends (R231): in every state the invariant allows with PHASE BUSY, a step in which the host
waits or has nothing left to do answers a state with PHASE DONE. -/
def Obligations.StartedCommandEnds : Prop :=
  ∀ s : State, s.Inv → s.phase = .busy → (s.script = [] ∨ ∃ rest, s.script = .awaitDone :: rest) →
    ∃ t, step s = .next t ∧ t.phase = .done

/-- A host write while PHASE is not BUSY changes the one register or element it names and nothing else of the block
(10_state.md R26); an index outside IBUF and a length LEN_W bits cannot hold stop (log entries 16, 17). -/
def Obligations.HostWritesOneOperand : Prop :=
  ∀ (s : State) (rest : List HostAction), s.phase ≠ .busy →
    (∀ c, s.script = .writeCmd c :: rest → ∃ t, step s = .next t ∧ t.cmd = c ∧ t.written = { s.written with cmd := true } ∧
      t = { s with cmd := t.cmd, written := t.written, script := rest }) ∧
    (∀ n, s.script = .writeInLen n :: rest → n < 2 ^ s.cfg.lenW → ∃ t, step s = .next t ∧ t.inLen = n ∧
      t.written = { s.written with inLen := true } ∧ t = { s with inLen := t.inLen, written := t.written, script := rest }) ∧
    (∀ n, s.script = .writeOutCap n :: rest → n < 2 ^ s.cfg.lenW → ∃ t, step s = .next t ∧ t.outCap = n ∧
      t.written = { s.written with outCap := true } ∧ t = { s with outCap := t.outCap, written := t.written, script := rest }) ∧
    (∀ v, s.script = .writeIval v :: rest → ∃ t, step s = .next t ∧ t.ival = v ∧ t.written = { s.written with ival := true } ∧
      t = { s with ival := t.ival, written := t.written, script := rest }) ∧
    (∀ i b, s.script = .writeIbuf i b :: rest → i < s.cfg.ibufSize → ∃ t, step s = .next t ∧
      (∀ j, Memory.read t.ibuf j = if j = i then some b else Memory.read s.ibuf j) ∧
      t = { s with ibuf := t.ibuf, script := rest }) ∧
    (∀ i b, s.script = .writeIbuf i b :: rest → s.cfg.ibufSize ≤ i → step s = .fault (.noSuchElement .ibuf i)) ∧
    (∀ n, s.script = .writeInLen n :: rest → 2 ^ s.cfg.lenW ≤ n → step s = .refused .lengthTooWide) ∧
    (∀ n, s.script = .writeOutCap n :: rest → 2 ^ s.cfg.lenW ≤ n → step s = .refused .lengthTooWide)

/-- Host reads while PHASE is not BUSY (10_state.md R26; 30_encoding.md R77; 20_memory.md R53): every register and every
element of OBUF may be read. CMD, IN_LEN, OUT_CAP and IVAL read as their value once written, STATUS, OUT_LEN and PHASE
always, an element of OBUF and `OBUF[0..OUT_LEN)` once a command has left them. What reset leaves unspecified (R28) reads,
before that, as some value of its width, whichever (log entry 18); an index past OBUF stops (log entry 17). No read, in any
phase, changes anything in the block, and reading twice gives the same value (R50). -/
def Obligations.HostReadsResults : Prop :=
  (∀ (s : State) (rest : List HostAction), s.phase ≠ .busy →
    (s.script = .read (.reg .cmd) :: rest → ∃ v : CmdWord, (s.written.cmd = true → v = s.cmd) ∧
      step s = .next ((s.withScript rest).record (.reg .cmd v.toNat))) ∧
    (s.script = .read (.reg .inLen) :: rest → ∃ v, (s.written.inLen = true → v = s.inLen) ∧
      (s.written.inLen = false → v < 2 ^ s.cfg.lenW) ∧ step s = .next ((s.withScript rest).record (.reg .inLen v))) ∧
    (s.script = .read (.reg .outCap) :: rest → ∃ v, (s.written.outCap = true → v = s.outCap) ∧
      (s.written.outCap = false → v < 2 ^ s.cfg.lenW) ∧ step s = .next ((s.withScript rest).record (.reg .outCap v))) ∧
    (s.script = .read (.reg .ival) :: rest → ∃ v : Word64, (s.written.ival = true → v = s.ival) ∧
      step s = .next ((s.withScript rest).record (.reg .ival v.toNat))) ∧
    (s.script = .read (.reg .status) :: rest →
      step s = .next ((s.withScript rest).record (.reg .status (statusCode s.status).toNat))) ∧
    (s.script = .read (.reg .outLen) :: rest → step s = .next ((s.withScript rest).record (.reg .outLen s.outLen))) ∧
    (s.script = .read (.reg .phase) :: rest →
      step s = .next ((s.withScript rest).record (.reg .phase (if s.phase = .idle then 0 else 2)))) ∧
    (∀ i, s.script = .read (.obuf i) :: rest →
      (i < s.cfg.obufSize → ∃ b, (Memory.read s.obuf i ≠ none → Memory.read s.obuf i = some b) ∧
        step s = .next ((s.withScript rest).record (.obuf i b))) ∧
      (s.cfg.obufSize ≤ i → step s = .fault (.noSuchElement .obuf i))) ∧
    (s.script = .read .result :: rest → ∃ bs, bs.length = s.outLen ∧ (s.result ≠ none → s.result = some bs) ∧
      step s = .next ((s.withScript rest).record (.result bs)))) ∧
  (∀ (s t : State) (x : ReadTarget) (rest : List HostAction), s.script = .read x :: rest → step s = .next t →
    ∃ r, t = { s with script := rest, reads := s.reads ++ [r] }) ∧
  ∀ (s t : State) (x : ReadTarget) (rest : List HostAction), s.script = .read x :: .read x :: rest →
    Sys2Proof.core.run 2 s = .next t → ∃ r, t = { s with script := rest, reads := s.reads ++ [r, r] }

/-- Reset may be applied at any time, also while BUSY (R220): every register and buffer is as after reset, the script
goes on. The parameters, the record of reads and the draw counter are no part of the block (log entry 23). -/
def Obligations.ResetAtAnyTime : Prop :=
  ∀ (s : State) (rest : List HostAction), s.script = .reset :: rest →
    ∃ t, step s = .next t ∧ t.phase = .idle ∧ t.status = .ok ∧ t.outLen = 0 ∧ t.ibuf = [] ∧ t.obuf = [] ∧
      t.written = State.reset.written ∧ t.cfg = s.cfg ∧ t.script = rest

/-- A run is over when the script is empty and PHASE is not BUSY (R233): from then on nothing changes. -/
def Obligations.RunIsOver : Prop :=
  ∀ s : State, s.script = [] → s.phase ≠ .busy → step s = .next s

/-- No instance of a system can observe or change another (20_memory.md R57, 60_exceptions.md R210), and a step keeps the
constraints of 00_scope.md R7, N_INSTANCES ≥ 1 among them, which a system of at least one instance after reset meets. -/
def Obligations.InstancesAreIndependent : Prop :=
  (∀ (sys sys' : System) (k : Nat), System.step sys k = .next sys' →
    sys'.length = sys.length ∧ ∀ j, j ≠ k → sys'[j]? = sys[j]?) ∧
  (∀ (a b a' : System) (k : Nat), b[k]? = a[k]? → System.step a k = .next a' →
    ∃ b', System.step b k = .next b' ∧ b'[k]? = a'[k]?) ∧
  (∀ (c : Config) (sys sys' : System) (k : Nat), System.wf c sys = true → System.step sys k = .next sys' →
    System.wf c sys' = true) ∧
  ∀ (c : Config) (n : Nat), c.wf = true → (System.wf c (System.reset c n) = true ↔ 1 ≤ n)

/-- The lines `WRB IBUF, <bytes>` and `WRT IBUF, "<text>"` (30_encoding.md R77): while PHASE is not BUSY, performing one
leaves a state that presents exactly those bytes, or character codes, to a command. R77 gives a line as one action; that
it takes one step for each element and one for the count is the model's choice (log entry 15). -/
def Obligations.WriteLinePresentsBytes : Prop :=
  ∀ (s : State) (line : ScriptLine) (bytes : List Byte) (rest : List HostAction), line = .wrb bytes ∨ line = .wrt bytes →
    s.phase ≠ .busy → bytes.length ≤ s.cfg.ibufSize → bytes.length < 2 ^ s.cfg.lenW → s.script = line.actions ++ rest →
    ∃ t : State, Sys2Proof.core.run (bytes.length + 1) s = .next t ∧ t.presents bytes ∧ t.phase = s.phase ∧
      t.script = rest ∧ t.cfg = s.cfg

/-- A `<MNEMONIC>` line (R77), and the same with a raw code for the reserved ones: write the code, give START, wait for
DONE. With everything R223 lists in place the line ends at DONE with what the command's own meaning gives. That the line is
three steps is the model's choice (log entries 1, 15); `Startable` takes the whole list of R223 (log entries 11, 12, 13). -/
def Obligations.MnemonicLineRunsCommand : Prop :=
  ∀ (s : State) (i : Instr) (rest : List HostAction), s.phase ≠ .busy → s.Startable i →
    (s.script = (ScriptLine.command i).actions ++ rest ∨ s.script = (ScriptLine.rawCommand (encode i)).actions ++ rest) →
    ∃ t u : State, Sys2Proof.core.run 3 s = .next t ∧ exec i s = .next u ∧ t.phase = .done ∧ t.cmd = encode i ∧
      t.script = rest ∧ t.status = u.status ∧ t.outLen = u.outLen ∧ (i ≠ .decf8 → t.result = u.result) ∧
      (u.status = .ok → t.ival = u.ival)

/-! ## Datapath -/

/-- PACK (R91): `ceil(8n/w)` groups, each below `2^w`, whose bit `w-1-t` is stream position `q·w + t`, and 0 past the
stream's end; stream position `8i + j` is bit `7 - j` of `b[i]` (R90). -/
def Obligations.PackCutsTheStream : Prop :=
  ∀ (w : Nat) (b : List Byte), w = 5 ∨ w = 6 →
    (pack w b).length = (8 * b.length + w - 1) / w ∧ (∀ g ∈ pack w b, g < 2 ^ w) ∧
    (∀ q t, q < (pack w b).length → t < w → ((pack w b).getD q 0).testBit (w - 1 - t) = streamBit b (q * w + t)) ∧
    (∀ i j, i < b.length → j ≤ 7 → streamBit b (8 * i + j) = (b.getD i 0#8).getLsbD (7 - j)) ∧
    ∀ p, 8 * b.length ≤ p → streamBit b p = false

/-- The final group (R92): with `r = 8n mod w` real bits, they stand in its high-order positions over zero bits; with
`r = 0` every group is full. -/
def Obligations.FinalGroupIsZeroFilled : Prop :=
  ∀ (w : Nat) (b : List Byte) (x : Byte), w = 5 ∨ w = 6 →
    (8 * (b.length + 1) % w ≠ 0 →
      (pack w (b ++ [x])).getLast? =
        some (x.toNat % 2 ^ (8 * (b.length + 1) % w) * 2 ^ (w - 8 * (b.length + 1) % w))) ∧
    (8 * (b.length + 1) % w = 0 → (pack w (b ++ [x])).length * w = 8 * (b.length + 1))

/-- UNPACK (R98, R99): `floor(k·w/8)` bytes, bit `7-t` of byte `j` being position `8j + t` of the symbols' bits, where
position `w·i + t` is bit `w-1-t` of `s[i]`. -/
def Obligations.UnpackReslices : Prop :=
  ∀ (w : Nat) (s : List Nat), w = 5 ∨ w = 6 → (∀ v ∈ s, v < 2 ^ w) →
    (unpack w s).length = s.length * w / 8 ∧
    (∀ j t, j < (unpack w s).length → t ≤ 7 → ((unpack w s).getD j 0#8).getLsbD (7 - t) = symbolBit w s (8 * j + t)) ∧
    ∀ i t, i < s.length → t < w → symbolBit w s (w * i + t) = (s.getD i 0).testBit (w - 1 - t)

/-- Unpacking what was packed gives the bytes back (R104 (a)). -/
def Obligations.UnpackOfPack : Prop :=
  ∀ (w : Nat) (b : List Byte), w = 5 ∨ w = 6 → unpack w (pack w b) = b

/-- Packing what was unpacked gives the symbols back exactly when their count is canonical and the dropped bits are
zero (R104 (b)). -/
def Obligations.PackOfUnpack : Prop :=
  ∀ (w : Nat) (s : List Nat), w = 5 ∨ w = 6 → (∀ v ∈ s, v < 2 ^ w) →
    (pack w (unpack w s) = s ↔
      s.length = symCount w (decLen w s.length) ∧
        ∀ p, 8 * decLen w s.length ≤ p → p < s.length * w → symbolBit w s p = false)

/-- UNPACK depends only on the first `8·DECLEN` bits (R104 (c), R100): the trailing bits are dropped unchecked. -/
def Obligations.UnpackIgnoresTrailingBits : Prop :=
  ∀ (w : Nat) (s u : List Nat), w = 5 ∨ w = 6 → s.length = u.length →
    (∀ p, p < 8 * decLen w s.length → symbolBit w s p = symbolBit w u p) → unpack w s = unpack w u

/-- The step form of the packer computes PACK (R93). -/
def Obligations.PackStepFormIsPack : Prop :=
  ∀ (w : Nat) (b : List Byte), w = 5 ∨ w = 6 → packSteps w b = pack w b

/-- The step form of the unpacker computes UNPACK (R101). -/
def Obligations.UnpackStepFormIsUnpack : Prop :=
  ∀ (w : Nat) (s : List Nat), w = 5 ∨ w = 6 → (∀ v ∈ s, v < 2 ^ w) → unpackSteps w s = unpack w s

/-- The closed forms of one full block (R94, R95). -/
def Obligations.PackClosedForms : Prop :=
  (∀ b0 b1 b2 : Byte, pack 6 [b0, b1, b2] =
    [(b0 >>> 2).toNat, (((b0 &&& 0x03#8) <<< 4) ||| (b1 >>> 4)).toNat, (((b1 &&& 0x0F#8) <<< 2) ||| (b2 >>> 6)).toNat,
      (b2 &&& 0x3F#8).toNat]) ∧
  ∀ b0 b1 b2 b3 b4 : Byte, pack 5 [b0, b1, b2, b3, b4] =
    [(b0 >>> 3).toNat, (((b0 &&& 0x07#8) <<< 2) ||| (b1 >>> 6)).toNat, ((b1 >>> 1) &&& 0x1F#8).toNat,
      (((b1 &&& 0x01#8) <<< 4) ||| (b2 >>> 4)).toNat, (((b2 &&& 0x0F#8) <<< 1) ||| (b3 >>> 7)).toNat,
      ((b3 >>> 2) &&& 0x1F#8).toNat, (((b3 &&& 0x03#8) <<< 3) ||| (b4 >>> 5)).toNat, (b4 &&& 0x1F#8).toNat]

/-- The closed forms of one full block of the unpacker (R102, R103). -/
def Obligations.UnpackClosedForms : Prop :=
  (∀ s0 s1 s2 s3 : Nat, s0 < 64 → s1 < 64 → s2 < 64 → s3 < 64 →
    (unpack 6 [s0, s1, s2, s3]).map BitVec.toNat =
      [(s0 <<< 2) ||| (s1 >>> 4), ((s1 &&& 0x0F) <<< 4) ||| (s2 >>> 2), ((s2 &&& 0x03) <<< 6) ||| s3]) ∧
  ∀ s0 s1 s2 s3 s4 s5 s6 s7 : Nat, s0 < 32 → s1 < 32 → s2 < 32 → s3 < 32 → s4 < 32 → s5 < 32 → s6 < 32 → s7 < 32 →
    (unpack 5 [s0, s1, s2, s3, s4, s5, s6, s7]).map BitVec.toNat =
      [(s0 <<< 3) ||| (s1 >>> 2), ((s1 &&& 0x03) <<< 6) ||| (s2 <<< 1) ||| (s3 >>> 4), ((s3 &&& 0x0F) <<< 4) ||| (s4 >>> 1),
        ((s4 &&& 0x01) <<< 7) ||| (s5 <<< 2) ||| (s6 >>> 3), ((s6 &&& 0x07) <<< 5) ||| s7]

/-- The alphabet invariants of 30_encoding.md R72, on the tables the spec gives (log entry 5). -/
def Obligations.AlphabetInvariants : Prop :=
  (∀ codec : Codec, (alphabet codec).Nodup ∧ (alphabet codec).length = 2 ^ width codec ∧ pad ∉ alphabet codec) ∧
    (∀ v, v < 32 → invOf .b32 (mapSymbol .b32 v) = .value v) ∧ (∀ v, v < 64 → invOf .b64u (mapSymbol .b64u v) = .value v) ∧
    ∀ v, v < 26 → invOf .b32 (mapSymbol .b32 v + 0x20#8) = .value v

/-- The inverse tables hold nothing but the alphabet (R69, R71): a code has a value exactly when it is a symbol, or, for
B32, the lower-case form of one; and the value is the symbol's position. -/
def Obligations.InverseTablesHoldOnlyTheAlphabet : Prop :=
  (∀ (c : Byte) (v : Nat), symbolValue .b64u c = some v ↔ v < 64 ∧ mapSymbol .b64u v = c) ∧
    ∀ (c : Byte) (v : Nat), symbolValue .b32 c = some v ↔
      v < 32 ∧ (mapSymbol .b32 v = c ∨ v < 26 ∧ mapSymbol .b32 v + 0x20#8 = c)

/-- The substitution stage (R107, R108): the alphabet is the standard table substituted; the two-stage decoder of one
character agrees with the one table; and on a text that is symbols followed by padding the flag PADSEEN changes nothing. -/
def Obligations.SubstitutionStageAgrees : Prop :=
  alpha64 = std64.map subst ∧ (∀ c : Byte, twoStageValue c = symbolValue .b64u c) ∧
    ∀ (t : List Byte), (validate .b64u t (trim t)).isSome → substStage false t = t.map substBack

/-- The counts of the padding controller (R109, with the table of R75), for every length; `ceil` is rounding up. -/
def Obligations.PaddingCounts : Prop :=
  ∀ n : Nat,
    symCount 5 n = (8 * n + 4) / 5 ∧ symCount 6 n = (8 * n + 5) / 6 ∧
      paddedLen .b32 n = 8 * ((n + 4) / 5) ∧ paddedLen .b64u n = 4 * ((n + 2) / 3) ∧
      padCount .b32 n = [0, 6, 4, 3, 1].getD (n % 5) 0 ∧ padCount .b64u n = [0, 2, 1].getD (n % 3) 0 ∧
      symCount 5 n + padCount .b32 n = paddedLen .b32 n ∧ symCount 6 n + padCount .b64u n = paddedLen .b64u n ∧
      padCount .b32 n < 8 ∧ padCount .b64u n < 4

/-- TRIM (R111): the effective symbol count is the largest `k ≤ L` with `k = 0` or `t[k-1] ≠ PAD`. -/
def Obligations.TrimIsTheLargestCount : Prop :=
  ∀ t : List Byte,
    trim t ≤ t.length ∧ (trim t = 0 ∨ t[trim t - 1]? ≠ some pad) ∧
      ∀ k, k ≤ t.length → (k = 0 ∨ t[k - 1]? ≠ some pad) → k ≤ trim t

/-- VALIDATE (R113): it fails exactly when some `t[i]`, `i < k`, has no value; otherwise it gives `INV(codec, t[i])` for
every `i < k`. -/
def Obligations.ValidatorScans : Prop :=
  ∀ (codec : Codec) (t : List Byte) (k : Nat), k ≤ t.length →
    (validate codec t k = none ↔ ∃ i, i < k ∧ symbolValue codec (t.getD i 0#8) = none) ∧
    ∀ s, validate codec t k = some s →
      s.length = k ∧ ∀ i, i < k → invOf codec (t.getD i 0#8) = .value (s.getD i 0)

/-- LE64 and UNLE64 (20_memory.md R46): least significant byte first, and inverse to each other. -/
def Obligations.IntegerByteOrder : Prop :=
  (∀ v : Word64, le64 v = [v.extractLsb' 0 8, v.extractLsb' 8 8, v.extractLsb' 16 8, v.extractLsb' 24 8,
      v.extractLsb' 32 8, v.extractLsb' 40 8, v.extractLsb' 48 8, v.extractLsb' 56 8] ∧ unle64 (le64 v) = v) ∧
    ∀ b : List Byte, b.length = 8 → le64 (unle64 b) = b

/-! ## What each command does -/

/-- ENC32 and ENC64 (R131, R132): the symbols of the packed bytes, then the padding; OUT_LEN counts both. -/
def Obligations.FreshEncodeResult : Prop :=
  ∀ (s : State) (b : List Byte), s.presents b →
    (8 * ((b.length + 4) / 5) ≤ s.cfg.obufSize →
      Yields .enc32 s ((pack 5 b).map (mapSymbol .b32) ++ List.replicate (padCount .b32 b.length) pad) ∧
      ∃ t, exec .enc32 s = .next t ∧ t.outLen = 8 * ((b.length + 4) / 5)) ∧
    (4 * ((b.length + 2) / 3) ≤ s.cfg.obufSize →
      Yields .enc64 s ((pack 6 b).map (mapSymbol .b64u) ++ List.replicate (padCount .b64u b.length) pad) ∧
      ∃ t, exec .enc64 s = .next t ∧ t.outLen = 4 * ((b.length + 2) / 3))

/-- ENC32B and ENC64B (R133, R134): with capacity for the padded length the same text; below it BufferTooSmall. -/
def Obligations.BufferedEncodeResult : Prop :=
  ∀ (s : State) (b : List Byte), s.presents b → s.offersCapacity →
    (8 * ((b.length + 4) / 5) ≤ s.outCap →
      Yields .enc32b s ((pack 5 b).map (mapSymbol .b32) ++ List.replicate (padCount .b32 b.length) pad)) ∧
    (s.outCap < 8 * ((b.length + 4) / 5) → Raises .enc32b s .bufferTooSmall) ∧
    (4 * ((b.length + 2) / 3) ≤ s.outCap →
      Yields .enc64b s ((pack 6 b).map (mapSymbol .b64u) ++ List.replicate (padCount .b64u b.length) pad)) ∧
    (s.outCap < 4 * ((b.length + 2) / 3) → Raises .enc64b s .bufferTooSmall)

/-- DEC32 and DEC64 (R151, R152): with `k` characters left after the trailing padding, all of them symbols, the
`floor(k·w/8)` bytes they unpack to; with one that is no symbol InvalidCharacter. -/
def Obligations.FreshDecodeResult : Prop :=
  ∀ (s : State) (t : List Byte), s.presents t →
    (trim t * 5 / 8 ≤ s.cfg.obufSize →
      (∀ v, validate .b32 t (trim t) = some v → Yields .dec32 s (unpack 5 v) ∧ (unpack 5 v).length = trim t * 5 / 8) ∧
      ((∃ i, i < trim t ∧ symbolValue .b32 (t.getD i 0#8) = none) → Raises .dec32 s .invalidCharacter)) ∧
    (trim t * 6 / 8 ≤ s.cfg.obufSize →
      (∀ v, validate .b64u t (trim t) = some v → Yields .dec64 s (unpack 6 v) ∧ (unpack 6 v).length = trim t * 6 / 8) ∧
      ((∃ i, i < trim t ∧ symbolValue .b64u (t.getD i 0#8) = none) → Raises .dec64 s .invalidCharacter))

/-- DEC32B and DEC64B (R153, R154, R199): capacity first, then the characters. That BufferTooSmall wins when both
conditions hold is the spec's own order (R199, 92_eei_decisions.md D7; log entry 10). -/
def Obligations.BufferedDecodeResult : Prop :=
  ∀ (s : State) (t : List Byte), s.presents t → s.offersCapacity →
    (s.outCap < trim t * 5 / 8 → Raises .dec32b s .bufferTooSmall) ∧
    (trim t * 5 / 8 ≤ s.outCap →
      (∀ v, validate .b32 t (trim t) = some v → Yields .dec32b s (unpack 5 v)) ∧
      ((∃ i, i < trim t ∧ symbolValue .b32 (t.getD i 0#8) = none) → Raises .dec32b s .invalidCharacter)) ∧
    (s.outCap < trim t * 6 / 8 → Raises .dec64b s .bufferTooSmall) ∧
    (trim t * 6 / 8 ≤ s.outCap →
      (∀ v, validate .b64u t (trim t) = some v → Yields .dec64b s (unpack 6 v)) ∧
      ((∃ i, i < trim t ∧ symbolValue .b64u (t.getD i 0#8) = none) → Raises .dec64b s .invalidCharacter))

/-- ENCF16 and ENCF8 (R171, R173): the symbols of the 16 bytes in index order, of the integer least significant byte
first; 22 and 11 characters, no padding; they are the canonical text less its last 2 and 1 characters (R118). The other
operands may hold anything, or nothing. -/
def Obligations.FixedEncodeResult : Prop :=
  ∀ s : State,
    (∀ b, b.length = 16 → Memory.readRange s.ibuf 0 16 = some b →
      Yields .encf16 s ((pack 6 b).map (mapSymbol .b64u)) ∧ ((pack 6 b).map (mapSymbol .b64u)).length = 22 ∧
        canonicalText .b64u b = (pack 6 b).map (mapSymbol .b64u) ++ [pad, pad]) ∧
    (s.written.ival = true →
      Yields .encf8 s ((pack 6 (le64 s.ival)).map (mapSymbol .b64u)) ∧
        ((pack 6 (le64 s.ival)).map (mapSymbol .b64u)).length = 11 ∧
        canonicalText .b64u (le64 s.ival) = (pack 6 (le64 s.ival)).map (mapSymbol .b64u) ++ [pad])

/-- DECF16 (R172, R175): LengthMismatch for every other length, before a character is read; InvalidCharacter when one of
the 22 is no symbol, `=` included; otherwise the 16 bytes. -/
def Obligations.FixedDecode16Result : Prop :=
  ∀ s : State, s.written.inLen = true → s.inLen ≤ s.cfg.ibufSize →
    (s.inLen ≠ 22 → Raises .decf16 s .lengthMismatch) ∧
    ∀ t, s.inLen = 22 → Memory.readRange s.ibuf 0 22 = some t →
      (∀ v, validate .b64u t 22 = some v → Yields .decf16 s (unpack 6 v) ∧ (unpack 6 v).length = 16) ∧
      ((∃ i, i < 22 ∧ symbolValue .b64u (t.getD i 0#8) = none) → Raises .decf16 s .invalidCharacter)

/-- DECF8 (R174, R175): the same with 11 characters; the result is IVAL, least significant byte first, and OUT_LEN is 8
(OBUF is unspecified). -/
def Obligations.FixedDecode8Result : Prop :=
  ∀ s : State, s.written.inLen = true → s.inLen ≤ s.cfg.ibufSize →
    (s.inLen ≠ 11 → Raises .decf8 s .lengthMismatch) ∧
    ∀ t, s.inLen = 11 → Memory.readRange s.ibuf 0 11 = some t →
      (∀ v, validate .b64u t 11 = some v →
        ∃ u, exec .decf8 s = .next u ∧ u.ival = unle64 (unpack 6 v) ∧ (unpack 6 v).length = 8 ∧ u.written.ival = true ∧
          u.status = .ok ∧ u.outLen = 8 ∧ u.phase = .done) ∧
      ((∃ i, i < 11 ∧ symbolValue .b64u (t.getD i 0#8) = none) → Raises .decf8 s .invalidCharacter)

/-- The four reserved codes (R63, R195) end at once with ReservedCommand, whatever the operands hold, and leave CMD,
IN_LEN, OUT_CAP, IVAL and IBUF as they are. This is exec alone: their START asks for IN_LEN and the input too (log
entries 11, 12; the fault and not a refusal is log entry 19). -/
def Obligations.ReservedCodesRaise : Prop :=
  ∀ (s : State) (i : Instr), i = .rsv8 ∨ i = .rsv9 ∨ i = .rsv12 ∨ i = .rsv13 →
    Raises i s .reservedCommand ∧ ∃ t, exec i s = .next t ∧ SameOperands s t

/-- A command runs exactly when everything it reads holds a value and is within bounds, and is refused otherwise (R27,
R121, R223; which operands each command reads is R49, log entries 11 and 12). -/
def Obligations.CommandsRunExactlyWhenReady : Prop :=
  ∀ (i : Instr) (s : State), (s.Ready i → ∃ t, exec i s = .next t) ∧ (¬ s.Ready i → ∃ r, exec i s = .refused r)

/-- The frame of every command but DECF8 (R49, R131 to R134, R151 to R154, R171 to R173, R196): every register but
STATUS, OUT_LEN and PHASE, every element of IBUF, what has been written, the parameters and the host's side stay. -/
def Obligations.CommandFrame : Prop :=
  ∀ (i : Instr) (s t : State), i ≠ .decf8 → exec i s = .next t →
    SameOperands s t ∧ (∀ j, Memory.read t.ibuf j = Memory.read s.ibuf j) ∧ t.script = s.script ∧ t.reads = s.reads ∧
      t.phase = .done

/-- The frame of DECF8 (R174, R196): the same, but IVAL is written. -/
def Obligations.IntegerDecodeFrame : Prop :=
  ∀ s t : State, exec .decf8 s = .next t →
    t.cfg = s.cfg ∧ t.cmd = s.cmd ∧ t.inLen = s.inLen ∧ t.outCap = s.outCap ∧
      (∀ j, Memory.read t.ibuf j = Memory.read s.ibuf j) ∧ t.ibuf = s.ibuf ∧
      t.written = { s.written with ival := true } ∧ t.script = s.script ∧ t.reads = s.reads ∧ t.phase = .done

/-! ## Faults -/

/-- The table of 60_exceptions.md R198: no command reports a fault its row does not allow. -/
def Obligations.FaultsByCommand : Prop :=
  ∀ (i : Instr) (s t : State) (k : FaultKind), exec i s = .next t → t.status = .raised k → mayRaise i k = true

/-- Every fault ends the command with OUT_LEN 0 and PHASE DONE and keeps CMD, IN_LEN, OUT_CAP and IBUF, and IVAL for
every command but DECF8 (R196); STATUS reads as the code of R191. -/
def Obligations.FaultEntry : Prop :=
  (∀ (i : Instr) (s t : State) (k : FaultKind), exec i s = .next t → t.status = .raised k →
    t.outLen = 0 ∧ t.phase = .done ∧ t.cmd = s.cmd ∧ t.inLen = s.inLen ∧ t.outCap = s.outCap ∧ t.ibuf = s.ibuf ∧
      (i ≠ .decf8 → t.ival = s.ival)) ∧
  statusCode .ok = 0#3 ∧ statusCode (.raised .invalidCharacter) = 1#3 ∧ statusCode (.raised .lengthMismatch) = 2#3 ∧
    statusCode (.raised .bufferTooSmall) = 3#3 ∧ statusCode (.raised .reservedCommand) = 4#3

/-- LengthMismatch, exact cause (R193): DECF16 with IN_LEN ≠ 22 or DECF8 with IN_LEN ≠ 11, whatever the characters
are, and no other command. -/
def Obligations.LengthMismatchExactly : Prop :=
  ∀ (i : Instr) (s t : State), exec i s = .next t →
    (t.status = .raised .lengthMismatch ↔ (i = .decf16 ∧ s.inLen ≠ 22) ∨ (i = .decf8 ∧ s.inLen ≠ 11))

/-- BufferTooSmall, exact cause (R194), also where a character is invalid (the spec's own order, R199 and decision D7; log
entry 10): a buffer-supplied encode with OUT_CAP < PADDEDLEN, a buffer-supplied decode with
OUT_CAP < DECLEN of the effective symbol count, and no other command. -/
def Obligations.BufferTooSmallExactly : Prop :=
  ∀ (i : Instr) (s t : State), exec i s = .next t →
    (t.status = .raised .bufferTooSmall ↔
      ∃ b, s.presents b ∧
        (((i = .enc32b) ∧ s.outCap < paddedLen .b32 b.length) ∨ ((i = .enc64b) ∧ s.outCap < paddedLen .b64u b.length) ∨
          ((i = .dec32b) ∧ s.outCap < decLen 5 (trim b)) ∨ ((i = .dec64b) ∧ s.outCap < decLen 6 (trim b))))

/-- InvalidCharacter (R192, R199): a decode command, no fault of higher priority, and a character among the first `k`
that has no value, `k` being what TRIM leaves for the general decoders and FC for the fixed-width ones. -/
def Obligations.InvalidCharacterExactly : Prop :=
  ∀ (i : Instr) (s t : State), exec i s = .next t →
    (t.status = .raised .invalidCharacter ↔
      ∃ b k, s.presents b ∧ i.dir = .decode ∧ i.reserved = false ∧
        k = (if i = .decf16 then 22 else if i = .decf8 then 11 else trim b) ∧
        (i = .decf16 ∨ i = .decf8 → s.inLen = k) ∧ (i.mode = .buf → decLen (width i.codec) k ≤ s.outCap) ∧
        ∃ j, j < k ∧ symbolValue i.codec (b.getD j 0#8) = none)

/-! ## Whole-machine properties -/

/-- No state is carried from one command to the next (10_state.md R24): two states that agree on IN_LEN, OUT_CAP, IVAL
and `IBUF[0..IN_LEN)` (`IBUF[0..16)` for ENCF16) give the same STATUS and OUT_LEN, the same result for every command that
writes one, and the same IVAL for a DECF8 that succeeds, whatever ran before. Operands keep their values across a command,
IVAL as the result of DECF8 apart. The sizes in `cfg` are the machine's. -/
def Obligations.ResultDependsOnOperandsOnly : Prop :=
  ∀ (i : Instr) (s u s' : State), u.cfg = s.cfg → u.inLen = s.inLen → u.outCap = s.outCap → u.ival = s.ival →
    u.written = s.written →
    (∀ j, j < (if i = .encf16 then 16 else s.inLen) → Memory.read u.ibuf j = Memory.read s.ibuf j) →
    exec i s = .next s' →
    (∃ u', exec i u = .next u' ∧ u'.status = s'.status ∧ u'.outLen = s'.outLen ∧
      (i ≠ .decf8 → u'.result = s'.result) ∧ (s'.status = .ok → u'.ival = s'.ival)) ∧
    s'.cmd = s.cmd ∧ s'.inLen = s.inLen ∧ s'.outCap = s.outCap ∧ s'.ibuf = s.ibuf ∧ (i ≠ .decf8 → s'.ival = s.ival)

/-- General round trip (R135 (b)): the text ENC32 (ENC64) leaves, presented to DEC32 (DEC64), gives the bytes back, for
every byte sequence, the empty one included. -/
def Obligations.GeneralRoundTrip : Prop :=
  ∀ (s u : State) (b text : List Byte), s.presents b → u.presents text → b.length ≤ u.cfg.obufSize →
    (Yields .enc32 s text → Yields .dec32 u b) ∧ (Yields .enc64 s text → Yields .dec64 u b)

/-- Fixed-width round trip (R177): DECF16 after ENCF16 gives the 16 bytes, DECF8 after ENCF8 gives the integer. -/
def Obligations.FixedRoundTrip : Prop :=
  ∀ (s u : State) (text : List Byte), u.presents text →
    (∀ b, Memory.readRange s.ibuf 0 16 = some b → Yields .encf16 s text → Yields .decf16 u b) ∧
    (Yields .encf8 s text → ∃ t, exec .decf8 u = .next t ∧ t.status = .ok ∧ t.ival = s.ival)

/-- The fixed-width text is accepted by the general decoder (R177): DEC64 of the 22 (11) characters gives the 16 bytes
(the 8 bytes of the integer). -/
def Obligations.FixedTextDecodesGenerally : Prop :=
  ∀ (s u : State) (text : List Byte), u.presents text → 16 ≤ u.cfg.obufSize →
    (∀ b, Memory.readRange s.ibuf 0 16 = some b → Yields .encf16 s text → Yields .dec64 u b) ∧
    (Yields .encf8 s text → Yields .dec64 u (le64 s.ival))

/-- Idempotent re-encoding (R156 (a)): a canonical text, decoded and encoded again, is the same text. -/
def Obligations.ReencodingCanonicalText : Prop :=
  ∀ (s u : State) (bytes text : List Byte), s.presents text → u.presents bytes → text.length ≤ u.cfg.obufSize →
    ((∃ b, text = canonicalText .b32 b) → Yields .dec32 s bytes → Yields .enc32 u text) ∧
    ((∃ b, text = canonicalText .b64u b) → Yields .dec64 s bytes → Yields .enc64 u text)

/-- Padding tolerance (R112, R156 (b)): any number of further padding characters after a text leaves the outcome of the
four general decoders as it was, fault or result. -/
def Obligations.PaddingTolerance : Prop :=
  ∀ (s u s' : State) (t : List Byte) (m : Nat) (i : Instr), i = .dec32 ∨ i = .dec64 ∨ i = .dec32b ∨ i = .dec64b →
    s.presents t → u.presents (t ++ List.replicate m pad) → u.cfg = s.cfg → u.outCap = s.outCap →
    u.written.outCap = s.written.outCap → exec i s = .next s' →
    ∃ u', exec i u = .next u' ∧ u'.status = s'.status ∧ u'.outLen = s'.outLen ∧ u'.result = s'.result

/-- The B32 decoders do not see the case of a letter (R106): two texts that are equal once every letter is folded to
lower case decode alike, fresh or into a buffer. -/
def Obligations.DecodeIgnoresCaseInB32 : Prop :=
  ∀ (s u s' : State) (t t' : List Byte) (i : Instr), i = .dec32 ∨ i = .dec32b → s.presents t → u.presents t' →
    t'.map foldCase = t.map foldCase → u.cfg = s.cfg → u.outCap = s.outCap → u.written.outCap = s.written.outCap →
    exec i s = .next s' →
    ∃ u', exec i u = .next u' ∧ u'.status = s'.status ∧ u'.outLen = s'.outLen ∧ u'.result = s'.result

/-- A buffer-supplied command with enough capacity gives exactly what the fresh-result command gives (R78 (b), R135
(d)): the same outcome, result or fault, whenever OUT_CAP is at least the computed output size; and the same result
whenever OUT_CAP is at least its length. -/
def Obligations.BufferedEqualsFresh : Prop :=
  ∀ (s : State) (b : List Byte), s.presents b → s.offersCapacity →
    (paddedLen .b32 b.length ≤ s.outCap → exec .enc32b s = exec .enc32 s) ∧
    (paddedLen .b64u b.length ≤ s.outCap → exec .enc64b s = exec .enc64 s) ∧
    (decLen 5 (trim b) ≤ s.outCap → exec .dec32b s = exec .dec32 s) ∧
    (decLen 6 (trim b) ≤ s.outCap → exec .dec64b s = exec .dec64 s) ∧
    ∀ r : List Byte, r.length ≤ s.outCap →
      (Yields .enc32 s r ↔ Yields .enc32b s r) ∧ (Yields .enc64 s r ↔ Yields .enc64b s r) ∧
        (Yields .dec32 s r ↔ Yields .dec32b s r) ∧ (Yields .dec64 s r ↔ Yields .dec64b s r)

/-- The last symbol of a fixed-width text carries zero bits below the value's (R171, R173): the 22nd is one of `A`, `Q`,
`g`, `w`; the value of the 11th is a multiple of 4. -/
def Obligations.LastFixedSymbol : Prop :=
  (∀ b : List Byte, b.length = 16 → (fixedText b)[21]? ∈ [some 0x41#8, some 0x51#8, some 0x67#8, some 0x77#8]) ∧
    ∀ v : Word64, ∃ g, (pack 6 (le64 v))[10]? = some g ∧ g % 4 = 0
end

