-- ==== Sys2Proof/Laws/Tables.lean ====
section
/-! SUPPORT. The laws of the look-up tables that other proofs use. -/

namespace Sys2Proof.Machine

@[simp] theorem width_b32 : width .b32 = 5 := rfl
@[simp] theorem width_b64u : width .b64u = 6 := rfl
@[simp] theorem alphabet_length (codec : Codec) : (alphabet codec).length = 2 ^ width codec := by
  cases codec <;> decide

/-- A group value names a symbol of the alphabet: the default of mapSymbol is never taken. -/
theorem mapSymbol_mem {codec : Codec} {v : Nat} (h : v < 2 ^ width codec) : mapSymbol codec v ∈ alphabet codec := by
  have h' : v < (alphabet codec).length := by simpa using h
  rw [mapSymbol, List.getD_eq_getElem _ _ h']
  exact List.getElem_mem h'

/-- Looking a symbol up gives its value back. -/
theorem symbolValue_mapSymbol {codec : Codec} {v : Nat} (h : v < 2 ^ width codec) :
    symbolValue codec (mapSymbol codec v) = some v := by
  cases codec with
  | b32 =>
    have key : ∀ v : Fin 32, symbolValue .b32 (mapSymbol .b32 v.1) = some v.1 := by decide +kernel
    exact key ⟨v, h⟩
  | b64u =>
    have key : ∀ v : Fin 64, symbolValue .b64u (mapSymbol .b64u v.1) = some v.1 := by decide +kernel
    exact key ⟨v, h⟩

/-- The value of a symbol lies below `2^w`. -/
theorem symbolValue_lt {codec : Codec} {c : Byte} {v : Nat} (h : symbolValue codec c = some v) :
    v < 2 ^ width codec := by
  cases codec with
  | b32 =>
    have key : ∀ n : Fin 256, ∀ u ∈ symbolValue .b32 (BitVec.ofFin n), u < 32 := by decide +kernel
    exact key c.toFin v h
  | b64u =>
    have key : ∀ n : Fin 256, ∀ u ∈ symbolValue .b64u (BitVec.ofFin n), u < 64 := by decide +kernel
    exact key c.toFin v h

/-- The padding character is no symbol. -/
@[simp] theorem symbolValue_pad (codec : Codec) : symbolValue codec pad = none := by cases codec <;> rfl

/-- A group's character is never the padding character. -/
theorem mapSymbol_ne_pad {codec : Codec} {v : Nat} (h : v < 2 ^ width codec) : mapSymbol codec v ≠ pad := by
  intro e
  have := symbolValue_mapSymbol h
  rw [e, symbolValue_pad] at this
  exact absurd this (by simp)

end Sys2Proof.Machine
end

