-- ==== Sys2Proof/Laws/Datapath.lean ====
section
/-! SUPPORT. The laws of the datapath that other proofs use: lengths, ranges, the bits of a value read from bits, and
the validator's shape. -/

namespace Sys2Proof.Machine

/-! ## A value read from bits -/

@[simp] theorem bitsValue_zero (bit : Nat → Bool) : bitsValue 0 bit = 0 := rfl

/-- One more bit at the low end. -/
theorem bitsValue_succ (w : Nat) (bit : Nat → Bool) :
    bitsValue (w + 1) bit = 2 * bitsValue w bit + (bit w).toNat := by
  simp only [bitsValue, List.range_succ, List.map_append, List.sum_append, List.map_cons, List.map_nil,
    List.sum_cons, List.sum_nil]
  have h : (List.map (fun t => (bit t).toNat * 2 ^ (w + 1 - 1 - t)) (List.range w)).sum =
      2 * (List.map (fun t => (bit t).toNat * 2 ^ (w - 1 - t)) (List.range w)).sum := by
    rw [← List.sum_map_mul_left]
    congr 1
    refine List.map_congr_left fun t ht => ?_
    have ht' : t < w := List.mem_range.1 ht
    rw [show w + 1 - 1 - t = (w - 1 - t) + 1 by omega, pow_succ]
    ring
  rw [h]
  simp

theorem bitsValue_lt (w : Nat) (bit : Nat → Bool) : bitsValue w bit < 2 ^ w := by
  induction w with
  | zero => simp
  | succ w ih =>
    rw [bitsValue_succ, pow_succ]
    have : (bit w).toNat ≤ 1 := Bool.toNat_le _
    omega

/-- Bit `w-1-t` of the value is bit `t` of what it was read from. -/
theorem testBit_bitsValue {w t : Nat} (bit : Nat → Bool) (h : t < w) :
    (bitsValue w bit).testBit (w - 1 - t) = bit t := by
  induction w with
  | zero => omega
  | succ w ih =>
    rw [bitsValue_succ]
    rcases Nat.lt_succ_iff_lt_or_eq.1 h with hlt | rfl
    · rw [show w + 1 - 1 - t = (w - 1 - t) + 1 by omega, Nat.testBit_succ, ← ih hlt]
      congr 1
      have : (bit w).toNat ≤ 1 := Bool.toNat_le _
      omega
    · rw [show t + 1 - 1 - t = 0 by omega, Nat.testBit_zero]
      cases bit t <;> simp

theorem bitsValue_congr {w : Nat} {f g : Nat → Bool} (h : ∀ t, t < w → f t = g t) :
    bitsValue w f = bitsValue w g := by
  unfold bitsValue
  congr 1
  exact List.map_congr_left fun t ht => by rw [h t (List.mem_range.1 ht)]

/-! ## Lengths and ranges -/

@[simp] theorem pack_length (w : Nat) (b : List Byte) : (pack w b).length = symCount w b.length := by simp [pack]

theorem pack_lt {w g : Nat} {b : List Byte} (h : g ∈ pack w b) : g < 2 ^ w := by
  obtain ⟨q, -, rfl⟩ := List.mem_map.1 h
  exact bitsValue_lt _ _

@[simp] theorem unpack_length (w : Nat) (s : List Nat) : (unpack w s).length = decLen w s.length := by simp [unpack]

/-- The symbols never outnumber the slots of the padded text. -/
theorem symCount_le_paddedLen (codec : Codec) (n : Nat) : symCount (width codec) n ≤ paddedLen codec n := by
  cases codec <;> simp only [symCount, paddedLen, width, blockSymbols, blockBytes] <;> omega

@[simp] theorem canonicalText_length (codec : Codec) (b : List Byte) :
    (canonicalText codec b).length = paddedLen codec b.length := by
  have := symCount_le_paddedLen codec b.length
  simp only [canonicalText, List.length_append, List.length_map, pack_length, List.length_replicate, padCount]
  omega

@[simp] theorem fixedText_length (v : List Byte) : (fixedText v).length = symCount 6 v.length := by simp [fixedText]

@[simp] theorem le64_length (v : Word64) : (le64 v).length = 8 := by simp [le64]

theorem trim_le (t : List Byte) : trim t ≤ t.length := by
  unfold trim
  exact (List.dropWhile_suffix _).length_le.trans (by simp)

/-! ## The validator -/

@[simp] theorem validateAll_nil (codec : Codec) : validateAll codec [] = some [] := rfl

/-- What a successful scan says of its first character. -/
theorem validateAll_cons {codec : Codec} {c : Byte} {cs : List Byte} {s : List Nat} :
    validateAll codec (c :: cs) = some s ↔
      ∃ v vs, symbolValue codec c = some v ∧ validateAll codec cs = some vs ∧ s = v :: vs := by
  simp only [validateAll]
  constructor
  · intro h
    split at h
    · exact absurd h (by simp)
    · rename_i v hv
      split at h
      · exact absurd h (by simp)
      · rename_i vs hvs
        exact ⟨v, vs, hv, hvs, (Option.some.inj h).symm⟩
  · rintro ⟨v, vs, hv, hvs, rfl⟩
    simp [hv, hvs]

theorem validateAll_length {codec : Codec} {cs : List Byte} {s : List Nat} (h : validateAll codec cs = some s) :
    s.length = cs.length := by
  induction cs generalizing s with
  | nil => simp at h; simp [← h]
  | cons c cs ih =>
    obtain ⟨v, vs, -, hvs, rfl⟩ := validateAll_cons.1 h
    simp [ih hvs]

theorem validateAll_lt {codec : Codec} {cs : List Byte} {s : List Nat} (h : validateAll codec cs = some s) :
    ∀ v ∈ s, v < 2 ^ width codec := by
  induction cs generalizing s with
  | nil =>
    obtain rfl := Option.some.inj h
    simp
  | cons c cs ih =>
    obtain ⟨v, vs, hv, hvs, rfl⟩ := validateAll_cons.1 h
    intro x hx
    rcases List.mem_cons.1 hx with rfl | hx
    · exact symbolValue_lt hv
    · exact ih hvs x hx

/-- A text of mapped groups validates to the groups. -/
theorem validateAll_map_mapSymbol {codec : Codec} {gs : List Nat} (h : ∀ g ∈ gs, g < 2 ^ width codec) :
    validateAll codec (gs.map (mapSymbol codec)) = some gs := by
  induction gs with
  | nil => rfl
  | cons g gs ih =>
    rw [List.map_cons, validateAll_cons]
    exact ⟨g, gs, symbolValue_mapSymbol (h g List.mem_cons_self), ih fun x hx => h x (List.mem_cons_of_mem g hx), rfl⟩

theorem validate_length {codec : Codec} {t : List Byte} {k : Nat} {s : List Nat} (hk : k ≤ t.length)
    (h : validate codec t k = some s) : s.length = k := by
  rw [validateAll_length h, List.length_take]
  omega

end Sys2Proof.Machine
end

