-- ==== Sys2Proof/Laws/Memory.lean ====
section
/-! SUPPORT. The laws of buffers: read after write, the canonical form kept by every operation, what a listed buffer
reads as, and that two canonical buffers that read alike are equal. -/

namespace Sys2Proof.Machine

/-! ## Read after write -/

@[simp] theorem Memory.read_nil (i : Nat) : Memory.read [] i = none := rfl

theorem Memory.read_cons (c : Host.Cell) (m : Memory) (i : Nat) :
    Memory.read (c :: m) i = if c.1 = i then some c.2 else Memory.read m i := rfl

theorem Memory.read_write (m : Memory) (i j : Nat) (b : Byte) :
    Memory.read (Memory.write m i b) j = if j = i then some b else Memory.read m j := by
  induction m with
  | nil => simp [Memory.write, Memory.read_cons, eq_comm]
  | cons c m ih =>
    by_cases hj : j = i
    · subst hj
      unfold Memory.write
      split
      · simp [Memory.read_cons]
      · split
        · simp [Memory.read_cons]
        · rename_i h
          simp [Memory.read_cons, ih, Ne.symm h]
    · unfold Memory.write
      split
      · simp [Memory.read_cons, Ne.symm hj]
      · split
        · rename_i h
          simp [Memory.read_cons, Ne.symm hj, ← h]
        · simp [Memory.read_cons, ih, hj]

@[simp] theorem Memory.read_write_same (m : Memory) (i : Nat) (b : Byte) :
    Memory.read (Memory.write m i b) i = some b := by simp [Memory.read_write]

theorem Memory.read_write_other (m : Memory) {i j : Nat} (b : Byte) (h : j ≠ i) :
    Memory.read (Memory.write m i b) j = Memory.read m j := by simp [Memory.read_write, h]

/-! ## The canonical form -/

@[simp] theorem Memory.risingFrom_nil (lo : Nat) : Memory.risingFrom lo [] = true := rfl

@[simp] theorem Memory.risingFrom_cons (lo : Nat) (c : Host.Cell) (m : Memory) :
    Memory.risingFrom lo (c :: m) = true ↔ lo ≤ c.1 ∧ Memory.risingFrom (c.1 + 1) m = true := by
  simp [Memory.risingFrom]

theorem Memory.risingFrom_mono {lo hi : Nat} {m : Memory} (h : lo ≤ hi) (hm : Memory.risingFrom hi m = true) :
    Memory.risingFrom lo m = true := by
  cases m with
  | nil => rfl
  | cons c m =>
    rw [Memory.risingFrom_cons] at hm ⊢
    exact ⟨by omega, hm.2⟩

theorem Memory.read_below {lo i : Nat} {m : Memory} (hm : Memory.risingFrom lo m = true) (h : i < lo) :
    Memory.read m i = none := by
  induction m generalizing lo with
  | nil => rfl
  | cons c m ih =>
    rw [Memory.risingFrom_cons] at hm
    rw [Memory.read_cons, if_neg (by omega)]
    exact ih hm.2 (by omega)

theorem Memory.risingFrom_write {lo i : Nat} {m : Memory} (b : Byte) (hm : Memory.risingFrom lo m = true)
    (h : lo ≤ i) : Memory.risingFrom lo (Memory.write m i b) = true := by
  induction m generalizing lo with
  | nil => simp [Memory.write, h]
  | cons c m ih =>
    rw [Memory.risingFrom_cons] at hm
    unfold Memory.write
    split
    · rw [Memory.risingFrom_cons, Memory.risingFrom_cons]; exact ⟨h, by omega, hm.2⟩
    · split
      · rename_i _ hi
        rw [Memory.risingFrom_cons]
        exact ⟨h, by rw [hi]; exact hm.2⟩
      · rw [Memory.risingFrom_cons]; exact ⟨hm.1, ih hm.2 (by omega)⟩

/-- A write keeps the canonical form. -/
theorem Memory.wf_write {m : Memory} (i : Nat) (b : Byte) (hm : Memory.wf m = true) :
    Memory.wf (Memory.write m i b) = true := Memory.risingFrom_write b hm (Nat.zero_le i)

theorem Memory.risingFrom_ofBytes (i : Nat) (bs : List Byte) :
    Memory.risingFrom i (Memory.ofBytes i bs) = true := by
  induction bs generalizing i with
  | nil => rfl
  | cons b bs ih => simp [Memory.ofBytes, ih]

/-- A listed buffer is canonical. -/
theorem Memory.wf_ofBytes (i : Nat) (bs : List Byte) : Memory.wf (Memory.ofBytes i bs) = true :=
  Memory.risingFrom_mono (Nat.zero_le i) (Memory.risingFrom_ofBytes i bs)

/-- OBUF after a command is canonical. -/
theorem wf_obufWith (cfg : Config) (draw : Nat) (r : List Byte) : Memory.wf (obufWith cfg draw r) = true :=
  Memory.wf_ofBytes 0 _

theorem Memory.supply_wf {m : Memory} (n : Nat) (hm : Memory.wf m = true) :
    Memory.wf (Memory.supply m n) = true := by
  induction n with
  | zero => exact hm
  | succ n ih =>
    unfold Memory.supply
    split
    · exact ih
    · exact Memory.wf_write _ _ ih

/-- Two canonical buffers that read alike are the same data. -/
theorem Memory.ext_read {m m' : Memory} (hm : Memory.wf m = true) (hm' : Memory.wf m' = true)
    (h : ∀ i, Memory.read m i = Memory.read m' i) : m = m' := by
  have key : ∀ (lo : Nat) (m m' : Memory), Memory.risingFrom lo m = true → Memory.risingFrom lo m' = true →
      (∀ i, Memory.read m i = Memory.read m' i) → m = m' := by
    intro lo m
    induction m generalizing lo with
    | nil =>
      intro m' _ _ h
      cases m' with
      | nil => rfl
      | cons c m' => have := h c.1; simp [Memory.read_cons] at this
    | cons c m ih =>
      intro m' hm hm' h
      cases m' with
      | nil => have := h c.1; simp [Memory.read_cons] at this
      | cons c' m' =>
        rw [Memory.risingFrom_cons] at hm hm'
        have h1 : c.1 = c'.1 := by
          rcases Nat.lt_trichotomy c.1 c'.1 with hlt | heq | hgt
          · have := h c.1
            rw [Memory.read_cons, if_pos rfl, Memory.read_cons, if_neg (by omega),
              Memory.read_below hm'.2 (by omega)] at this
            exact absurd this (by simp)
          · exact heq
          · have := h c'.1
            rw [Memory.read_cons, if_neg (by omega), Memory.read_cons, if_pos rfl,
              Memory.read_below hm.2 (by omega)] at this
            exact absurd this (by simp)
        have h2 : c.2 = c'.2 := by
          have := h c.1
          rw [Memory.read_cons, if_pos rfl, Memory.read_cons, if_pos h1.symm] at this
          exact Option.some.inj this
        have h3 : m = m' := by
          refine ih (c.1 + 1) m' hm.2 (by rw [h1]; exact hm'.2) fun i => ?_
          by_cases hi : c.1 = i
          · rw [Memory.read_below hm.2 (by omega), Memory.read_below hm'.2 (by omega)]
          · have := h i
            rwa [Memory.read_cons, if_neg hi, Memory.read_cons, if_neg (by omega)] at this
        rw [h3, show c = c' from Prod.ext h1 h2]
  exact key 0 m m' hm hm' h

/-! ## What a listed buffer reads as -/

theorem Memory.read_ofBytes (i j : Nat) (bs : List Byte) :
    Memory.read (Memory.ofBytes i bs) (i + j) = bs[j]? := by
  induction bs generalizing i j with
  | nil => simp [Memory.ofBytes]
  | cons b bs ih =>
    cases j with
    | zero => simp [Memory.ofBytes, Memory.read_cons]
    | succ j =>
      have := ih (i + 1) j
      rw [show i + 1 + j = i + (j + 1) by omega] at this
      simp [Memory.ofBytes, Memory.read_cons, this]

@[simp] theorem Memory.read_ofBytes_zero (j : Nat) (bs : List Byte) :
    Memory.read (Memory.ofBytes 0 bs) j = bs[j]? := by simpa using Memory.read_ofBytes 0 j bs

theorem Memory.read_ofBytes_below {i j : Nat} (bs : List Byte) (h : j < i) :
    Memory.read (Memory.ofBytes i bs) j = none := Memory.read_below (Memory.risingFrom_ofBytes i bs) h

/-- A range reads as `bs` exactly when `bs` has its length and each element reads as the element of `bs`. -/
theorem Memory.readRange_eq_some {m : Memory} {i n : Nat} {bs : List Byte} :
    Memory.readRange m i n = some bs ↔ bs.length = n ∧ ∀ j, j < n → Memory.read m (i + j) = bs[j]? := by
  induction n generalizing i bs with
  | zero => cases bs <;> simp [Memory.readRange]
  | succ n ih =>
    unfold Memory.readRange
    constructor
    · intro h
      split at h
      · exact absurd h (by simp)
      · rename_i b hb
        split at h
        · exact absurd h (by simp)
        · rename_i rest hr
          obtain rfl := Option.some.inj h
          obtain ⟨hlen, hel⟩ := ih.1 hr
          refine ⟨by simp [hlen], fun j hj => ?_⟩
          cases j with
          | zero => simpa using hb
          | succ j => have := hel j (by omega); rw [show i + 1 + j = i + (j + 1) by omega] at this; simpa using this
    · rintro ⟨hlen, hel⟩
      cases bs with
      | nil => simp at hlen
      | cons b bs =>
        have h0 : Memory.read m i = some b := by simpa using hel 0 (by omega)
        have h1 : Memory.readRange m (i + 1) n = some bs := by
          refine ih.2 ⟨by simpa using hlen, fun j hj => ?_⟩
          have := hel (j + 1) (by omega)
          rw [show i + (j + 1) = i + 1 + j by omega] at this
          simpa using this
        rw [h0, h1]

theorem Memory.readRange_length {m : Memory} {i n : Nat} {bs : List Byte} (h : Memory.readRange m i n = some bs) :
    bs.length = n := (Memory.readRange_eq_some.1 h).1

/-- A range reads as something exactly when each of its elements holds a value. -/
theorem Memory.readRange_ne_none {m : Memory} {i n : Nat} :
    Memory.readRange m i n ≠ none ↔ ∀ j, j < n → Memory.read m (i + j) ≠ none := by
  induction n generalizing i with
  | zero => simp [Memory.readRange]
  | succ n ih =>
    unfold Memory.readRange
    constructor
    · intro h j hj
      split at h
      · exact absurd rfl h
      · rename_i b hb
        split at h
        · exact absurd rfl h
        · rename_i rest hr
          cases j with
          | zero => rw [Nat.add_zero, hb]; simp
          | succ j =>
            have := ih.1 (by rw [hr]; simp) j (by omega)
            rwa [show i + (j + 1) = i + 1 + j by omega]
    · intro h
      have h0 := h 0 (by omega)
      rw [Nat.add_zero] at h0
      have h1 : Memory.readRange m (i + 1) n ≠ none := ih.2 fun j hj => by
        have := h (j + 1) (by omega)
        rwa [show i + 1 + j = i + (j + 1) by omega]
      split
      · contradiction
      · split
        · contradiction
        · simp

/-- A listed buffer gives its first elements back. -/
theorem Memory.readRange_ofBytes (r rest : List Byte) :
    Memory.readRange (Memory.ofBytes 0 (r ++ rest)) 0 r.length = some r := by
  refine Memory.readRange_eq_some.2 ⟨rfl, fun j hj => ?_⟩
  rw [Nat.zero_add, Memory.read_ofBytes_zero, List.getElem?_append_left hj]

/-! ## OBUF after a command -/

@[simp] theorem freeBytes_length (draw i n : Nat) : (freeBytes draw i n).length = n := by
  induction n generalizing i with
  | zero => rfl
  | succ n ih => simp [freeBytes, ih]

/-- The result stands at the start of OBUF. -/
@[simp] theorem readRange_obufWith (cfg : Config) (draw : Nat) (r : List Byte) :
    Memory.readRange (obufWith cfg draw r) 0 r.length = some r := Memory.readRange_ofBytes r _

/-- Every element of OBUF holds a value after a command, and none past its end where the result fits. -/
theorem read_obufWith_ne_none {cfg : Config} {draw i : Nat} {r : List Byte} :
    Memory.read (obufWith cfg draw r) i ≠ none ↔ i < max r.length cfg.obufSize := by
  simp only [obufWith, Memory.read_ofBytes_zero, ne_eq, List.getElem?_eq_none_iff, List.length_append,
    freeBytes_length]
  omega

end Sys2Proof.Machine
end

