-- ==== Sys2Proof/Laws/State.lean ====
section
/-! SUPPORT. One lemma per field per named update of State, each true by rfl, so that no proof unfolds a record update. -/

namespace Sys2Proof.Machine

/-! ## endCommand -/

@[simp] theorem State.endCommand_cfg (s : State) (st : Status) (n : Nat) (r : List Byte) :
    (s.endCommand st n r).cfg = s.cfg := rfl
@[simp] theorem State.endCommand_cmd (s : State) (st : Status) (n : Nat) (r : List Byte) :
    (s.endCommand st n r).cmd = s.cmd := rfl
@[simp] theorem State.endCommand_inLen (s : State) (st : Status) (n : Nat) (r : List Byte) :
    (s.endCommand st n r).inLen = s.inLen := rfl
@[simp] theorem State.endCommand_outCap (s : State) (st : Status) (n : Nat) (r : List Byte) :
    (s.endCommand st n r).outCap = s.outCap := rfl
@[simp] theorem State.endCommand_ival (s : State) (st : Status) (n : Nat) (r : List Byte) :
    (s.endCommand st n r).ival = s.ival := rfl
@[simp] theorem State.endCommand_status (s : State) (st : Status) (n : Nat) (r : List Byte) :
    (s.endCommand st n r).status = st := rfl
@[simp] theorem State.endCommand_outLen (s : State) (st : Status) (n : Nat) (r : List Byte) :
    (s.endCommand st n r).outLen = n := rfl
@[simp] theorem State.endCommand_phase (s : State) (st : Status) (n : Nat) (r : List Byte) :
    (s.endCommand st n r).phase = .done := rfl
@[simp] theorem State.endCommand_ibuf (s : State) (st : Status) (n : Nat) (r : List Byte) :
    (s.endCommand st n r).ibuf = s.ibuf := rfl
@[simp] theorem State.endCommand_obuf (s : State) (st : Status) (n : Nat) (r : List Byte) :
    (s.endCommand st n r).obuf = obufWith s.cfg s.draws r := rfl
@[simp] theorem State.endCommand_written (s : State) (st : Status) (n : Nat) (r : List Byte) :
    (s.endCommand st n r).written = s.written := rfl
@[simp] theorem State.endCommand_scratch (s : State) (st : Status) (n : Nat) (r : List Byte) :
    (s.endCommand st n r).scratch = Config.freeScratch s.draws := rfl
@[simp] theorem State.endCommand_draws (s : State) (st : Status) (n : Nat) (r : List Byte) :
    (s.endCommand st n r).draws = s.draws + 1 := rfl
@[simp] theorem State.endCommand_resetDraw (s : State) (st : Status) (n : Nat) (r : List Byte) :
    (s.endCommand st n r).resetDraw = s.resetDraw := rfl
@[simp] theorem State.endCommand_script (s : State) (st : Status) (n : Nat) (r : List Byte) :
    (s.endCommand st n r).script = s.script := rfl
@[simp] theorem State.endCommand_reads (s : State) (st : Status) (n : Nat) (r : List Byte) :
    (s.endCommand st n r).reads = s.reads := rfl

/-! ## finish -/

@[simp] theorem State.finish_cfg (s : State) (n : Nat) (r : List Byte) : (s.finish n r).cfg = s.cfg := rfl
@[simp] theorem State.finish_cmd (s : State) (n : Nat) (r : List Byte) : (s.finish n r).cmd = s.cmd := rfl
@[simp] theorem State.finish_inLen (s : State) (n : Nat) (r : List Byte) : (s.finish n r).inLen = s.inLen := rfl
@[simp] theorem State.finish_outCap (s : State) (n : Nat) (r : List Byte) : (s.finish n r).outCap = s.outCap := rfl
@[simp] theorem State.finish_ival (s : State) (n : Nat) (r : List Byte) : (s.finish n r).ival = s.ival := rfl
@[simp] theorem State.finish_status (s : State) (n : Nat) (r : List Byte) : (s.finish n r).status = .ok := rfl
@[simp] theorem State.finish_outLen (s : State) (n : Nat) (r : List Byte) : (s.finish n r).outLen = n := rfl
@[simp] theorem State.finish_phase (s : State) (n : Nat) (r : List Byte) : (s.finish n r).phase = .done := rfl
@[simp] theorem State.finish_ibuf (s : State) (n : Nat) (r : List Byte) : (s.finish n r).ibuf = s.ibuf := rfl
@[simp] theorem State.finish_obuf (s : State) (n : Nat) (r : List Byte) :
    (s.finish n r).obuf = obufWith s.cfg s.draws r := rfl
@[simp] theorem State.finish_written (s : State) (n : Nat) (r : List Byte) : (s.finish n r).written = s.written := rfl
@[simp] theorem State.finish_scratch (s : State) (n : Nat) (r : List Byte) :
    (s.finish n r).scratch = Config.freeScratch s.draws := rfl
@[simp] theorem State.finish_draws (s : State) (n : Nat) (r : List Byte) : (s.finish n r).draws = s.draws + 1 := rfl
@[simp] theorem State.finish_resetDraw (s : State) (n : Nat) (r : List Byte) :
    (s.finish n r).resetDraw = s.resetDraw := rfl
@[simp] theorem State.finish_script (s : State) (n : Nat) (r : List Byte) : (s.finish n r).script = s.script := rfl
@[simp] theorem State.finish_reads (s : State) (n : Nat) (r : List Byte) : (s.finish n r).reads = s.reads := rfl

/-! ## raise -/

@[simp] theorem State.raise_cfg (s : State) (k : FaultKind) : (s.raise k).cfg = s.cfg := rfl
@[simp] theorem State.raise_cmd (s : State) (k : FaultKind) : (s.raise k).cmd = s.cmd := rfl
@[simp] theorem State.raise_inLen (s : State) (k : FaultKind) : (s.raise k).inLen = s.inLen := rfl
@[simp] theorem State.raise_outCap (s : State) (k : FaultKind) : (s.raise k).outCap = s.outCap := rfl
@[simp] theorem State.raise_ival (s : State) (k : FaultKind) : (s.raise k).ival = s.ival := rfl
@[simp] theorem State.raise_status (s : State) (k : FaultKind) : (s.raise k).status = .raised k := rfl
@[simp] theorem State.raise_outLen (s : State) (k : FaultKind) : (s.raise k).outLen = 0 := rfl
@[simp] theorem State.raise_phase (s : State) (k : FaultKind) : (s.raise k).phase = .done := rfl
@[simp] theorem State.raise_ibuf (s : State) (k : FaultKind) : (s.raise k).ibuf = s.ibuf := rfl
@[simp] theorem State.raise_obuf (s : State) (k : FaultKind) : (s.raise k).obuf = obufWith s.cfg s.draws [] := rfl
@[simp] theorem State.raise_written (s : State) (k : FaultKind) : (s.raise k).written = s.written := rfl
@[simp] theorem State.raise_scratch (s : State) (k : FaultKind) :
    (s.raise k).scratch = Config.freeScratch s.draws := rfl
@[simp] theorem State.raise_draws (s : State) (k : FaultKind) : (s.raise k).draws = s.draws + 1 := rfl
@[simp] theorem State.raise_resetDraw (s : State) (k : FaultKind) : (s.raise k).resetDraw = s.resetDraw := rfl
@[simp] theorem State.raise_script (s : State) (k : FaultKind) : (s.raise k).script = s.script := rfl
@[simp] theorem State.raise_reads (s : State) (k : FaultKind) : (s.raise k).reads = s.reads := rfl

/-! ## setIval -/

@[simp] theorem State.setIval_cfg (s : State) (v : Word64) : (s.setIval v).cfg = s.cfg := rfl
@[simp] theorem State.setIval_cmd (s : State) (v : Word64) : (s.setIval v).cmd = s.cmd := rfl
@[simp] theorem State.setIval_inLen (s : State) (v : Word64) : (s.setIval v).inLen = s.inLen := rfl
@[simp] theorem State.setIval_outCap (s : State) (v : Word64) : (s.setIval v).outCap = s.outCap := rfl
@[simp] theorem State.setIval_ival (s : State) (v : Word64) : (s.setIval v).ival = v := rfl
@[simp] theorem State.setIval_status (s : State) (v : Word64) : (s.setIval v).status = s.status := rfl
@[simp] theorem State.setIval_outLen (s : State) (v : Word64) : (s.setIval v).outLen = s.outLen := rfl
@[simp] theorem State.setIval_phase (s : State) (v : Word64) : (s.setIval v).phase = s.phase := rfl
@[simp] theorem State.setIval_ibuf (s : State) (v : Word64) : (s.setIval v).ibuf = s.ibuf := rfl
@[simp] theorem State.setIval_obuf (s : State) (v : Word64) : (s.setIval v).obuf = s.obuf := rfl
@[simp] theorem State.setIval_written (s : State) (v : Word64) :
    (s.setIval v).written = { s.written with ival := true } := rfl
@[simp] theorem State.setIval_scratch (s : State) (v : Word64) : (s.setIval v).scratch = s.scratch := rfl
@[simp] theorem State.setIval_draws (s : State) (v : Word64) : (s.setIval v).draws = s.draws := rfl
@[simp] theorem State.setIval_resetDraw (s : State) (v : Word64) : (s.setIval v).resetDraw = s.resetDraw := rfl
@[simp] theorem State.setIval_script (s : State) (v : Word64) : (s.setIval v).script = s.script := rfl
@[simp] theorem State.setIval_reads (s : State) (v : Word64) : (s.setIval v).reads = s.reads := rfl

/-! ## finishIval -/

@[simp] theorem State.finishIval_cfg (s : State) (v : Word64) : (s.finishIval v).cfg = s.cfg := rfl
@[simp] theorem State.finishIval_cmd (s : State) (v : Word64) : (s.finishIval v).cmd = s.cmd := rfl
@[simp] theorem State.finishIval_inLen (s : State) (v : Word64) : (s.finishIval v).inLen = s.inLen := rfl
@[simp] theorem State.finishIval_outCap (s : State) (v : Word64) : (s.finishIval v).outCap = s.outCap := rfl
@[simp] theorem State.finishIval_ival (s : State) (v : Word64) : (s.finishIval v).ival = v := rfl
@[simp] theorem State.finishIval_status (s : State) (v : Word64) : (s.finishIval v).status = .ok := rfl
@[simp] theorem State.finishIval_outLen (s : State) (v : Word64) : (s.finishIval v).outLen = 8 := rfl
@[simp] theorem State.finishIval_phase (s : State) (v : Word64) : (s.finishIval v).phase = .done := rfl
@[simp] theorem State.finishIval_ibuf (s : State) (v : Word64) : (s.finishIval v).ibuf = s.ibuf := rfl
@[simp] theorem State.finishIval_obuf (s : State) (v : Word64) :
    (s.finishIval v).obuf = obufWith s.cfg s.draws [] := rfl
@[simp] theorem State.finishIval_written (s : State) (v : Word64) :
    (s.finishIval v).written = { s.written with ival := true } := rfl
@[simp] theorem State.finishIval_scratch (s : State) (v : Word64) :
    (s.finishIval v).scratch = Config.freeScratch s.draws := rfl
@[simp] theorem State.finishIval_draws (s : State) (v : Word64) : (s.finishIval v).draws = s.draws + 1 := rfl
@[simp] theorem State.finishIval_resetDraw (s : State) (v : Word64) : (s.finishIval v).resetDraw = s.resetDraw := rfl
@[simp] theorem State.finishIval_script (s : State) (v : Word64) : (s.finishIval v).script = s.script := rfl
@[simp] theorem State.finishIval_reads (s : State) (v : Word64) : (s.finishIval v).reads = s.reads := rfl

/-! ## raiseIval -/

@[simp] theorem State.raiseIval_cfg (s : State) (k : FaultKind) : (s.raiseIval k).cfg = s.cfg := rfl
@[simp] theorem State.raiseIval_cmd (s : State) (k : FaultKind) : (s.raiseIval k).cmd = s.cmd := rfl
@[simp] theorem State.raiseIval_inLen (s : State) (k : FaultKind) : (s.raiseIval k).inLen = s.inLen := rfl
@[simp] theorem State.raiseIval_outCap (s : State) (k : FaultKind) : (s.raiseIval k).outCap = s.outCap := rfl
@[simp] theorem State.raiseIval_ival (s : State) (k : FaultKind) :
    (s.raiseIval k).ival = Config.freeIval s.draws := rfl
@[simp] theorem State.raiseIval_status (s : State) (k : FaultKind) : (s.raiseIval k).status = .raised k := rfl
@[simp] theorem State.raiseIval_outLen (s : State) (k : FaultKind) : (s.raiseIval k).outLen = 0 := rfl
@[simp] theorem State.raiseIval_phase (s : State) (k : FaultKind) : (s.raiseIval k).phase = .done := rfl
@[simp] theorem State.raiseIval_ibuf (s : State) (k : FaultKind) : (s.raiseIval k).ibuf = s.ibuf := rfl
@[simp] theorem State.raiseIval_obuf (s : State) (k : FaultKind) :
    (s.raiseIval k).obuf = obufWith s.cfg s.draws [] := rfl
@[simp] theorem State.raiseIval_written (s : State) (k : FaultKind) :
    (s.raiseIval k).written = { s.written with ival := true } := rfl
@[simp] theorem State.raiseIval_scratch (s : State) (k : FaultKind) :
    (s.raiseIval k).scratch = Config.freeScratch s.draws := rfl
@[simp] theorem State.raiseIval_draws (s : State) (k : FaultKind) : (s.raiseIval k).draws = s.draws + 1 := rfl
@[simp] theorem State.raiseIval_resetDraw (s : State) (k : FaultKind) : (s.raiseIval k).resetDraw = s.resetDraw := rfl
@[simp] theorem State.raiseIval_script (s : State) (k : FaultKind) : (s.raiseIval k).script = s.script := rfl
@[simp] theorem State.raiseIval_reads (s : State) (k : FaultKind) : (s.raiseIval k).reads = s.reads := rfl

/-! ## begin -/

@[simp] theorem State.begin_cfg (s : State) : s.begin.cfg = s.cfg := rfl
@[simp] theorem State.begin_cmd (s : State) : s.begin.cmd = s.cmd := rfl
@[simp] theorem State.begin_inLen (s : State) : s.begin.inLen = s.inLen := rfl
@[simp] theorem State.begin_outCap (s : State) : s.begin.outCap = s.outCap := rfl
@[simp] theorem State.begin_ival (s : State) : s.begin.ival = s.ival := rfl
@[simp] theorem State.begin_status (s : State) : s.begin.status = Config.freeStatus s.draws := rfl
@[simp] theorem State.begin_outLen (s : State) : s.begin.outLen = Config.freeLen s.draws % 2 ^ s.cfg.lenW := rfl
@[simp] theorem State.begin_phase (s : State) : s.begin.phase = .busy := rfl
@[simp] theorem State.begin_ibuf (s : State) : s.begin.ibuf = s.ibuf := rfl
@[simp] theorem State.begin_obuf (s : State) : s.begin.obuf = obufWith s.cfg s.draws [] := rfl
@[simp] theorem State.begin_written (s : State) : s.begin.written = s.written := rfl
@[simp] theorem State.begin_scratch (s : State) : s.begin.scratch = s.scratch := rfl
@[simp] theorem State.begin_draws (s : State) : s.begin.draws = s.draws + 1 := rfl
@[simp] theorem State.begin_resetDraw (s : State) : s.begin.resetDraw = s.resetDraw := rfl
@[simp] theorem State.begin_script (s : State) : s.begin.script = s.script := rfl
@[simp] theorem State.begin_reads (s : State) : s.begin.reads = s.reads := rfl

/-! ## hostReset -/

@[simp] theorem State.hostReset_cfg (s : State) : s.hostReset.cfg = s.cfg := rfl
@[simp] theorem State.hostReset_cmd (s : State) : s.hostReset.cmd = 0#4 := rfl
@[simp] theorem State.hostReset_inLen (s : State) : s.hostReset.inLen = 0 := rfl
@[simp] theorem State.hostReset_outCap (s : State) : s.hostReset.outCap = 0 := rfl
@[simp] theorem State.hostReset_ival (s : State) : s.hostReset.ival = 0#64 := rfl
@[simp] theorem State.hostReset_status (s : State) : s.hostReset.status = .ok := rfl
@[simp] theorem State.hostReset_outLen (s : State) : s.hostReset.outLen = 0 := rfl
@[simp] theorem State.hostReset_phase (s : State) : s.hostReset.phase = .idle := rfl
@[simp] theorem State.hostReset_ibuf (s : State) : s.hostReset.ibuf = [] := rfl
@[simp] theorem State.hostReset_obuf (s : State) : s.hostReset.obuf = [] := rfl
@[simp] theorem State.hostReset_written (s : State) : s.hostReset.written = State.reset.written := rfl
@[simp] theorem State.hostReset_scratch (s : State) : s.hostReset.scratch = State.reset.scratch := rfl
@[simp] theorem State.hostReset_draws (s : State) : s.hostReset.draws = s.draws + 1 := rfl
@[simp] theorem State.hostReset_resetDraw (s : State) : s.hostReset.resetDraw = s.draws := rfl
@[simp] theorem State.hostReset_script (s : State) : s.hostReset.script = s.script := rfl
@[simp] theorem State.hostReset_reads (s : State) : s.hostReset.reads = s.reads := rfl

/-! ## putCmd -/

@[simp] theorem State.putCmd_cfg (s : State) (c : CmdWord) : (s.putCmd c).cfg = s.cfg := rfl
@[simp] theorem State.putCmd_cmd (s : State) (c : CmdWord) : (s.putCmd c).cmd = c := rfl
@[simp] theorem State.putCmd_inLen (s : State) (c : CmdWord) : (s.putCmd c).inLen = s.inLen := rfl
@[simp] theorem State.putCmd_outCap (s : State) (c : CmdWord) : (s.putCmd c).outCap = s.outCap := rfl
@[simp] theorem State.putCmd_ival (s : State) (c : CmdWord) : (s.putCmd c).ival = s.ival := rfl
@[simp] theorem State.putCmd_status (s : State) (c : CmdWord) : (s.putCmd c).status = s.status := rfl
@[simp] theorem State.putCmd_outLen (s : State) (c : CmdWord) : (s.putCmd c).outLen = s.outLen := rfl
@[simp] theorem State.putCmd_phase (s : State) (c : CmdWord) : (s.putCmd c).phase = s.phase := rfl
@[simp] theorem State.putCmd_ibuf (s : State) (c : CmdWord) : (s.putCmd c).ibuf = s.ibuf := rfl
@[simp] theorem State.putCmd_obuf (s : State) (c : CmdWord) : (s.putCmd c).obuf = s.obuf := rfl
@[simp] theorem State.putCmd_written (s : State) (c : CmdWord) :
    (s.putCmd c).written = { s.written with cmd := true } := rfl
@[simp] theorem State.putCmd_scratch (s : State) (c : CmdWord) : (s.putCmd c).scratch = s.scratch := rfl
@[simp] theorem State.putCmd_draws (s : State) (c : CmdWord) : (s.putCmd c).draws = s.draws := rfl
@[simp] theorem State.putCmd_resetDraw (s : State) (c : CmdWord) : (s.putCmd c).resetDraw = s.resetDraw := rfl
@[simp] theorem State.putCmd_script (s : State) (c : CmdWord) : (s.putCmd c).script = s.script := rfl
@[simp] theorem State.putCmd_reads (s : State) (c : CmdWord) : (s.putCmd c).reads = s.reads := rfl

/-! ## putInLen -/

@[simp] theorem State.putInLen_cfg (s : State) (n : Nat) : (s.putInLen n).cfg = s.cfg := rfl
@[simp] theorem State.putInLen_cmd (s : State) (n : Nat) : (s.putInLen n).cmd = s.cmd := rfl
@[simp] theorem State.putInLen_inLen (s : State) (n : Nat) : (s.putInLen n).inLen = n := rfl
@[simp] theorem State.putInLen_outCap (s : State) (n : Nat) : (s.putInLen n).outCap = s.outCap := rfl
@[simp] theorem State.putInLen_ival (s : State) (n : Nat) : (s.putInLen n).ival = s.ival := rfl
@[simp] theorem State.putInLen_status (s : State) (n : Nat) : (s.putInLen n).status = s.status := rfl
@[simp] theorem State.putInLen_outLen (s : State) (n : Nat) : (s.putInLen n).outLen = s.outLen := rfl
@[simp] theorem State.putInLen_phase (s : State) (n : Nat) : (s.putInLen n).phase = s.phase := rfl
@[simp] theorem State.putInLen_ibuf (s : State) (n : Nat) : (s.putInLen n).ibuf = s.ibuf := rfl
@[simp] theorem State.putInLen_obuf (s : State) (n : Nat) : (s.putInLen n).obuf = s.obuf := rfl
@[simp] theorem State.putInLen_written (s : State) (n : Nat) :
    (s.putInLen n).written = { s.written with inLen := true } := rfl
@[simp] theorem State.putInLen_scratch (s : State) (n : Nat) : (s.putInLen n).scratch = s.scratch := rfl
@[simp] theorem State.putInLen_draws (s : State) (n : Nat) : (s.putInLen n).draws = s.draws := rfl
@[simp] theorem State.putInLen_resetDraw (s : State) (n : Nat) : (s.putInLen n).resetDraw = s.resetDraw := rfl
@[simp] theorem State.putInLen_script (s : State) (n : Nat) : (s.putInLen n).script = s.script := rfl
@[simp] theorem State.putInLen_reads (s : State) (n : Nat) : (s.putInLen n).reads = s.reads := rfl

/-! ## putOutCap -/

@[simp] theorem State.putOutCap_cfg (s : State) (n : Nat) : (s.putOutCap n).cfg = s.cfg := rfl
@[simp] theorem State.putOutCap_cmd (s : State) (n : Nat) : (s.putOutCap n).cmd = s.cmd := rfl
@[simp] theorem State.putOutCap_inLen (s : State) (n : Nat) : (s.putOutCap n).inLen = s.inLen := rfl
@[simp] theorem State.putOutCap_outCap (s : State) (n : Nat) : (s.putOutCap n).outCap = n := rfl
@[simp] theorem State.putOutCap_ival (s : State) (n : Nat) : (s.putOutCap n).ival = s.ival := rfl
@[simp] theorem State.putOutCap_status (s : State) (n : Nat) : (s.putOutCap n).status = s.status := rfl
@[simp] theorem State.putOutCap_outLen (s : State) (n : Nat) : (s.putOutCap n).outLen = s.outLen := rfl
@[simp] theorem State.putOutCap_phase (s : State) (n : Nat) : (s.putOutCap n).phase = s.phase := rfl
@[simp] theorem State.putOutCap_ibuf (s : State) (n : Nat) : (s.putOutCap n).ibuf = s.ibuf := rfl
@[simp] theorem State.putOutCap_obuf (s : State) (n : Nat) : (s.putOutCap n).obuf = s.obuf := rfl
@[simp] theorem State.putOutCap_written (s : State) (n : Nat) :
    (s.putOutCap n).written = { s.written with outCap := true } := rfl
@[simp] theorem State.putOutCap_scratch (s : State) (n : Nat) : (s.putOutCap n).scratch = s.scratch := rfl
@[simp] theorem State.putOutCap_draws (s : State) (n : Nat) : (s.putOutCap n).draws = s.draws := rfl
@[simp] theorem State.putOutCap_resetDraw (s : State) (n : Nat) : (s.putOutCap n).resetDraw = s.resetDraw := rfl
@[simp] theorem State.putOutCap_script (s : State) (n : Nat) : (s.putOutCap n).script = s.script := rfl
@[simp] theorem State.putOutCap_reads (s : State) (n : Nat) : (s.putOutCap n).reads = s.reads := rfl

/-! ## putIbuf -/

@[simp] theorem State.putIbuf_cfg (s : State) (i : Nat) (b : Byte) : (s.putIbuf i b).cfg = s.cfg := rfl
@[simp] theorem State.putIbuf_cmd (s : State) (i : Nat) (b : Byte) : (s.putIbuf i b).cmd = s.cmd := rfl
@[simp] theorem State.putIbuf_inLen (s : State) (i : Nat) (b : Byte) : (s.putIbuf i b).inLen = s.inLen := rfl
@[simp] theorem State.putIbuf_outCap (s : State) (i : Nat) (b : Byte) : (s.putIbuf i b).outCap = s.outCap := rfl
@[simp] theorem State.putIbuf_ival (s : State) (i : Nat) (b : Byte) : (s.putIbuf i b).ival = s.ival := rfl
@[simp] theorem State.putIbuf_status (s : State) (i : Nat) (b : Byte) : (s.putIbuf i b).status = s.status := rfl
@[simp] theorem State.putIbuf_outLen (s : State) (i : Nat) (b : Byte) : (s.putIbuf i b).outLen = s.outLen := rfl
@[simp] theorem State.putIbuf_phase (s : State) (i : Nat) (b : Byte) : (s.putIbuf i b).phase = s.phase := rfl
@[simp] theorem State.putIbuf_ibuf (s : State) (i : Nat) (b : Byte) :
    (s.putIbuf i b).ibuf = Memory.write s.ibuf i b := rfl
@[simp] theorem State.putIbuf_obuf (s : State) (i : Nat) (b : Byte) : (s.putIbuf i b).obuf = s.obuf := rfl
@[simp] theorem State.putIbuf_written (s : State) (i : Nat) (b : Byte) : (s.putIbuf i b).written = s.written := rfl
@[simp] theorem State.putIbuf_scratch (s : State) (i : Nat) (b : Byte) : (s.putIbuf i b).scratch = s.scratch := rfl
@[simp] theorem State.putIbuf_draws (s : State) (i : Nat) (b : Byte) : (s.putIbuf i b).draws = s.draws := rfl
@[simp] theorem State.putIbuf_resetDraw (s : State) (i : Nat) (b : Byte) :
    (s.putIbuf i b).resetDraw = s.resetDraw := rfl
@[simp] theorem State.putIbuf_script (s : State) (i : Nat) (b : Byte) : (s.putIbuf i b).script = s.script := rfl
@[simp] theorem State.putIbuf_reads (s : State) (i : Nat) (b : Byte) : (s.putIbuf i b).reads = s.reads := rfl

/-! ## withScript -/

@[simp] theorem State.withScript_cfg (s : State) (rest : List HostAction) : (s.withScript rest).cfg = s.cfg := rfl
@[simp] theorem State.withScript_cmd (s : State) (rest : List HostAction) : (s.withScript rest).cmd = s.cmd := rfl
@[simp] theorem State.withScript_inLen (s : State) (rest : List HostAction) :
    (s.withScript rest).inLen = s.inLen := rfl
@[simp] theorem State.withScript_outCap (s : State) (rest : List HostAction) :
    (s.withScript rest).outCap = s.outCap := rfl
@[simp] theorem State.withScript_ival (s : State) (rest : List HostAction) : (s.withScript rest).ival = s.ival := rfl
@[simp] theorem State.withScript_status (s : State) (rest : List HostAction) :
    (s.withScript rest).status = s.status := rfl
@[simp] theorem State.withScript_outLen (s : State) (rest : List HostAction) :
    (s.withScript rest).outLen = s.outLen := rfl
@[simp] theorem State.withScript_phase (s : State) (rest : List HostAction) :
    (s.withScript rest).phase = s.phase := rfl
@[simp] theorem State.withScript_ibuf (s : State) (rest : List HostAction) : (s.withScript rest).ibuf = s.ibuf := rfl
@[simp] theorem State.withScript_obuf (s : State) (rest : List HostAction) : (s.withScript rest).obuf = s.obuf := rfl
@[simp] theorem State.withScript_written (s : State) (rest : List HostAction) :
    (s.withScript rest).written = s.written := rfl
@[simp] theorem State.withScript_scratch (s : State) (rest : List HostAction) :
    (s.withScript rest).scratch = s.scratch := rfl
@[simp] theorem State.withScript_draws (s : State) (rest : List HostAction) :
    (s.withScript rest).draws = s.draws := rfl
@[simp] theorem State.withScript_resetDraw (s : State) (rest : List HostAction) :
    (s.withScript rest).resetDraw = s.resetDraw := rfl
@[simp] theorem State.withScript_script (s : State) (rest : List HostAction) :
    (s.withScript rest).script = rest := rfl
@[simp] theorem State.withScript_reads (s : State) (rest : List HostAction) :
    (s.withScript rest).reads = s.reads := rfl

/-! ## record -/

@[simp] theorem State.record_cfg (s : State) (r : HostRead) : (s.record r).cfg = s.cfg := rfl
@[simp] theorem State.record_cmd (s : State) (r : HostRead) : (s.record r).cmd = s.cmd := rfl
@[simp] theorem State.record_inLen (s : State) (r : HostRead) : (s.record r).inLen = s.inLen := rfl
@[simp] theorem State.record_outCap (s : State) (r : HostRead) : (s.record r).outCap = s.outCap := rfl
@[simp] theorem State.record_ival (s : State) (r : HostRead) : (s.record r).ival = s.ival := rfl
@[simp] theorem State.record_status (s : State) (r : HostRead) : (s.record r).status = s.status := rfl
@[simp] theorem State.record_outLen (s : State) (r : HostRead) : (s.record r).outLen = s.outLen := rfl
@[simp] theorem State.record_phase (s : State) (r : HostRead) : (s.record r).phase = s.phase := rfl
@[simp] theorem State.record_ibuf (s : State) (r : HostRead) : (s.record r).ibuf = s.ibuf := rfl
@[simp] theorem State.record_obuf (s : State) (r : HostRead) : (s.record r).obuf = s.obuf := rfl
@[simp] theorem State.record_written (s : State) (r : HostRead) : (s.record r).written = s.written := rfl
@[simp] theorem State.record_scratch (s : State) (r : HostRead) : (s.record r).scratch = s.scratch := rfl
@[simp] theorem State.record_draws (s : State) (r : HostRead) : (s.record r).draws = s.draws := rfl
@[simp] theorem State.record_resetDraw (s : State) (r : HostRead) : (s.record r).resetDraw = s.resetDraw := rfl
@[simp] theorem State.record_script (s : State) (r : HostRead) : (s.record r).script = s.script := rfl
@[simp] theorem State.record_reads (s : State) (r : HostRead) : (s.record r).reads = s.reads ++ [r] := rfl

/-! ## encodeFixed -/

@[simp] theorem State.encodeFixed_cfg (s : State) (p : FixedWidth) (v : List Byte) :
    (s.encodeFixed p v).cfg = s.cfg := rfl
@[simp] theorem State.encodeFixed_cmd (s : State) (p : FixedWidth) (v : List Byte) :
    (s.encodeFixed p v).cmd = s.cmd := rfl
@[simp] theorem State.encodeFixed_inLen (s : State) (p : FixedWidth) (v : List Byte) :
    (s.encodeFixed p v).inLen = s.inLen := rfl
@[simp] theorem State.encodeFixed_outCap (s : State) (p : FixedWidth) (v : List Byte) :
    (s.encodeFixed p v).outCap = s.outCap := rfl
@[simp] theorem State.encodeFixed_ival (s : State) (p : FixedWidth) (v : List Byte) :
    (s.encodeFixed p v).ival = s.ival := rfl
@[simp] theorem State.encodeFixed_status (s : State) (p : FixedWidth) (v : List Byte) :
    (s.encodeFixed p v).status = .ok := rfl
@[simp] theorem State.encodeFixed_outLen (s : State) (p : FixedWidth) (v : List Byte) :
    (s.encodeFixed p v).outLen = p.fc := rfl
@[simp] theorem State.encodeFixed_phase (s : State) (p : FixedWidth) (v : List Byte) :
    (s.encodeFixed p v).phase = .done := rfl
@[simp] theorem State.encodeFixed_ibuf (s : State) (p : FixedWidth) (v : List Byte) :
    (s.encodeFixed p v).ibuf = s.ibuf := rfl
@[simp] theorem State.encodeFixed_obuf (s : State) (p : FixedWidth) (v : List Byte) :
    (s.encodeFixed p v).obuf = obufWith s.cfg s.draws (fixedText v) := rfl
@[simp] theorem State.encodeFixed_written (s : State) (p : FixedWidth) (v : List Byte) :
    (s.encodeFixed p v).written = s.written := rfl
@[simp] theorem State.encodeFixed_scratch (s : State) (p : FixedWidth) (v : List Byte) :
    (s.encodeFixed p v).scratch = Config.freeScratch s.draws := rfl
@[simp] theorem State.encodeFixed_draws (s : State) (p : FixedWidth) (v : List Byte) :
    (s.encodeFixed p v).draws = s.draws + 1 := rfl
@[simp] theorem State.encodeFixed_resetDraw (s : State) (p : FixedWidth) (v : List Byte) :
    (s.encodeFixed p v).resetDraw = s.resetDraw := rfl
@[simp] theorem State.encodeFixed_script (s : State) (p : FixedWidth) (v : List Byte) :
    (s.encodeFixed p v).script = s.script := rfl
@[simp] theorem State.encodeFixed_reads (s : State) (p : FixedWidth) (v : List Byte) :
    (s.encodeFixed p v).reads = s.reads := rfl

/-! ## readyToRun -/

@[simp] theorem State.readyToRun_cfg (s : State) (c : CmdWord) : (s.readyToRun c).cfg = s.cfg := rfl
@[simp] theorem State.readyToRun_cmd (s : State) (c : CmdWord) : (s.readyToRun c).cmd = c := rfl
@[simp] theorem State.readyToRun_inLen (s : State) (c : CmdWord) : (s.readyToRun c).inLen = s.inLen := rfl
@[simp] theorem State.readyToRun_outCap (s : State) (c : CmdWord) : (s.readyToRun c).outCap = s.outCap := rfl
@[simp] theorem State.readyToRun_ival (s : State) (c : CmdWord) : (s.readyToRun c).ival = s.ival := rfl
@[simp] theorem State.readyToRun_status (s : State) (c : CmdWord) : (s.readyToRun c).status = s.status := rfl
@[simp] theorem State.readyToRun_outLen (s : State) (c : CmdWord) : (s.readyToRun c).outLen = s.outLen := rfl
@[simp] theorem State.readyToRun_phase (s : State) (c : CmdWord) : (s.readyToRun c).phase = .busy := rfl
@[simp] theorem State.readyToRun_ibuf (s : State) (c : CmdWord) :
    (s.readyToRun c).ibuf = Memory.supply s.ibuf (startCount (decodeCmd c) s.inLen) := rfl
@[simp] theorem State.readyToRun_obuf (s : State) (c : CmdWord) : (s.readyToRun c).obuf = s.obuf := rfl
@[simp] theorem State.readyToRun_written (s : State) (c : CmdWord) :
    (s.readyToRun c).written =
      { cmd := true, inLen := s.written.inLen || startNeedsInput (decodeCmd c), outCap := s.written.outCap || readsOutCap (decodeCmd c), ival := s.written.ival || readsIval (decodeCmd c) } := rfl
@[simp] theorem State.readyToRun_scratch (s : State) (c : CmdWord) : (s.readyToRun c).scratch = s.scratch := rfl
@[simp] theorem State.readyToRun_draws (s : State) (c : CmdWord) : (s.readyToRun c).draws = s.draws := rfl
@[simp] theorem State.readyToRun_resetDraw (s : State) (c : CmdWord) : (s.readyToRun c).resetDraw = s.resetDraw := rfl
@[simp] theorem State.readyToRun_script (s : State) (c : CmdWord) :
    (s.readyToRun c).script = .awaitDone :: s.script := rfl
@[simp] theorem State.readyToRun_reads (s : State) (c : CmdWord) : (s.readyToRun c).reads = s.reads := rfl

end Sys2Proof.Machine
end

