-- ==== Sys2Proof/Laws/Operands.lean ====
section
/-! SUPPORT. What each operand read and each check answers, said once; and that they look at nothing but the operands. -/

namespace Sys2Proof.Machine

theorem State.readInLen_eq_ok {s : State} {n : Nat} :
    s.readInLen = .ok n ↔ s.written.inLen = true ∧ s.inLen ≤ s.cfg.ibufSize ∧ n = s.inLen := by
  unfold State.readInLen
  split
  · rename_i hw
    split
    · rename_i hle; simp [hw, hle, eq_comm]
    · rename_i hle; simp [hle]
  · rename_i hw; simp [hw]

theorem State.readOutCap_eq_ok {s : State} {n : Nat} :
    s.readOutCap = .ok n ↔ s.offersCapacity ∧ n = s.outCap := by
  unfold State.readOutCap State.offersCapacity
  split
  · rename_i hw
    split
    · rename_i hle; simp [hw, hle, eq_comm]
    · rename_i hle; simp [hle]
  · rename_i hw; simp [hw]

theorem State.readIval_eq_ok {s : State} {v : Word64} :
    s.readIval = .ok v ↔ s.written.ival = true ∧ v = s.ival := by
  unfold State.readIval
  split
  · rename_i hw; simp [hw, eq_comm]
  · rename_i hw; simp [hw]

theorem State.readIbuf_eq_ok {s : State} {n : Nat} {b : List Byte} :
    s.readIbuf n = .ok b ↔ Memory.readRange s.ibuf 0 n = some b := by
  unfold State.readIbuf
  split <;> simp_all

/-- A general command reads `b` exactly where the state presents `b`. -/
theorem State.readInput_eq_ok {s : State} {b : List Byte} : s.readInput = .ok b ↔ s.presents b := by
  unfold State.readInput State.presents
  constructor
  · intro h
    split at h
    · exact absurd h (by simp)
    · rename_i n hn
      obtain ⟨hw, hle, rfl⟩ := State.readInLen_eq_ok.1 hn
      have hr := State.readIbuf_eq_ok.1 h
      have hlen := Memory.readRange_length hr
      exact ⟨hw, hlen.symm, hle, by rw [hlen]; exact hr⟩
  · rintro ⟨hw, hlen, hle, hr⟩
    rw [State.readInLen_eq_ok.2 ⟨hw, hle, rfl⟩]
    exact State.readIbuf_eq_ok.2 (by rw [hlen]; exact hr)

theorem State.presents_unique {s : State} {b c : List Byte} (hb : s.presents b) (hc : s.presents c) : b = c := by
  have h1 := State.readInput_eq_ok.2 hb
  have h2 := State.readInput_eq_ok.2 hc
  rw [h1] at h2
  exact Except.ok.inj h2

/-- The input R223 asks for is in place exactly where the state presents some bytes. -/
theorem State.startInput_eq_ok {s : State} {i : Instr} :
    s.startInput i = .ok () ↔ (startNeedsInput i = true → ∃ b, s.presents b) := by
  unfold State.startInput
  split
  · rename_i hn
    constructor
    · intro h _
      split at h
      · exact absurd h (by simp)
      · rename_i b hb; exact ⟨b, State.readInput_eq_ok.1 hb⟩
    · intro h
      obtain ⟨b, hb⟩ := h hn
      rw [State.readInput_eq_ok.2 hb]
  · rename_i hn; simp [hn]

/-- The capacity check of a fresh-result command. -/
theorem State.capacity_fresh (s : State) (need : Nat) :
    s.capacity false need = if s.cfg.obufSize < need then .error .needTooLarge else .ok none := rfl

/-- The capacity check of a buffer-supplied command. -/
theorem State.capacity_checked {s : State} (need : Nat) (h : s.offersCapacity) :
    s.capacity true need = .ok (if s.outCap < need then some .bufferTooSmall else none) := by
  simp [State.capacity, State.readOutCap_eq_ok.2 ⟨h, rfl⟩]

/-- Everything the capacity check can answer without refusing. -/
theorem State.capacity_cases {s : State} {check : Bool} {need : Nat} {r : Option FaultKind}
    (h : s.capacity check need = .ok r) :
    (check = false ∧ need ≤ s.cfg.obufSize ∧ r = none) ∨
      (check = true ∧ s.offersCapacity ∧ need ≤ s.outCap ∧ r = none) ∨
      (check = true ∧ s.offersCapacity ∧ s.outCap < need ∧ r = some .bufferTooSmall) := by
  cases check with
  | false =>
    rw [State.capacity_fresh] at h
    split at h
    · exact absurd h (by simp)
    · exact .inl ⟨rfl, by omega, (Except.ok.inj h).symm⟩
  | true =>
    by_cases hc : s.offersCapacity
    · rw [State.capacity_checked need hc] at h
      obtain rfl := Except.ok.inj h
      split
      · rename_i hlt; exact .inr (.inr ⟨rfl, hc, hlt, rfl⟩)
      · exact .inr (.inl ⟨rfl, hc, by omega, rfl⟩)
    · exfalso
      have hne : ∀ n, s.readOutCap ≠ .ok n := fun n e => hc (State.readOutCap_eq_ok.1 e).1
      simp only [State.capacity, if_true] at h
      split at h
      · exact absurd h (by simp)
      · rename_i n hn; exact hne n hn

/-- Everything a fixed-width decode can answer without refusing. -/
theorem State.decodeFixed_cases {s : State} {p : FixedWidth} {d : Decoded} (h : s.decodeFixed p = .ok d) :
    s.written.inLen = true ∧ s.inLen ≤ s.cfg.ibufSize ∧
      ((s.inLen ≠ p.fc ∧ d = .error .lengthMismatch) ∨
        (s.inLen = p.fc ∧ ∃ t, Memory.readRange s.ibuf 0 p.fc = some t ∧ d = decodeText .b64u t p.fc)) := by
  unfold State.decodeFixed at h
  split at h
  · exact absurd h (by simp)
  · rename_i n hn
    obtain ⟨hw, hle, rfl⟩ := State.readInLen_eq_ok.1 hn
    refine ⟨hw, hle, ?_⟩
    split at h
    · rename_i heq
      split at h
      · exact absurd h (by simp)
      · rename_i t ht
        exact .inr ⟨heq, t, State.readIbuf_eq_ok.1 ht, (Except.ok.inj h).symm⟩
    · rename_i hne
      exact .inl ⟨hne, (Except.ok.inj h).symm⟩

/-- What validating and unpacking answers. -/
theorem decodeText_cases (codec : Codec) (t : List Byte) (k : Nat) :
    (validate codec t k = none ∧ decodeText codec t k = .error .invalidCharacter) ∨
      ∃ v, validate codec t k = some v ∧ decodeText codec t k = .ok (unpack (width codec) v) := by
  unfold decodeText
  cases h : validate codec t k with
  | none => exact .inl ⟨rfl, rfl⟩
  | some v => exact .inr ⟨v, rfl, rfl⟩

/-! ## The operands alone decide -/

/-- Two states agree on everything a command may read. -/
structure AgreeOnOperands (s u : State) : Prop where
  cfg : u.cfg = s.cfg
  inLen : u.inLen = s.inLen
  outCap : u.outCap = s.outCap
  ival : u.ival = s.ival
  ibuf : u.ibuf = s.ibuf
  inLenWritten : u.written.inLen = s.written.inLen
  outCapWritten : u.written.outCap = s.written.outCap
  ivalWritten : u.written.ival = s.written.ival

theorem SameOperands.agree {s u : State} (h : SameOperands s u) : AgreeOnOperands s u := by
  obtain ⟨h1, -, h2, h3, h4, h5, h6⟩ := h
  exact ⟨h1, h2, h3, h4, h5, by rw [h6], by rw [h6], by rw [h6]⟩

theorem AgreeOnOperands.withScript (s : State) (rest : List HostAction) : AgreeOnOperands s (s.withScript rest) :=
  ⟨rfl, rfl, rfl, rfl, rfl, rfl, rfl, rfl⟩

theorem AgreeOnOperands.record (s : State) (r : HostRead) : AgreeOnOperands s (s.record r) :=
  ⟨rfl, rfl, rfl, rfl, rfl, rfl, rfl, rfl⟩

theorem AgreeOnOperands.begin (s : State) : AgreeOnOperands s s.begin := ⟨rfl, rfl, rfl, rfl, rfl, rfl, rfl, rfl⟩

theorem AgreeOnOperands.putCmd (s : State) (c : CmdWord) : AgreeOnOperands s (s.putCmd c) :=
  ⟨rfl, rfl, rfl, rfl, rfl, rfl, rfl, rfl⟩

theorem AgreeOnOperands.trans {s u v : State} (h : AgreeOnOperands s u) (k : AgreeOnOperands u v) :
    AgreeOnOperands s v :=
  ⟨k.cfg.trans h.cfg, k.inLen.trans h.inLen, k.outCap.trans h.outCap, k.ival.trans h.ival, k.ibuf.trans h.ibuf,
    k.inLenWritten.trans h.inLenWritten, k.outCapWritten.trans h.outCapWritten, k.ivalWritten.trans h.ivalWritten⟩

section
variable {s u : State} (h : AgreeOnOperands s u)
include h

theorem AgreeOnOperands.readInLen : u.readInLen = s.readInLen := by
  simp [State.readInLen, h.inLenWritten, h.inLen, h.cfg]

theorem AgreeOnOperands.readOutCap : u.readOutCap = s.readOutCap := by
  simp [State.readOutCap, h.outCapWritten, h.outCap, h.cfg]

theorem AgreeOnOperands.readIval : u.readIval = s.readIval := by
  simp [State.readIval, h.ivalWritten, h.ival]

theorem AgreeOnOperands.readIbuf (n : Nat) : u.readIbuf n = s.readIbuf n := by simp [State.readIbuf, h.ibuf]

theorem AgreeOnOperands.readInput : u.readInput = s.readInput := by
  simp [State.readInput, h.readInLen, h.readIbuf]

theorem AgreeOnOperands.capacity (check : Bool) (need : Nat) : u.capacity check need = s.capacity check need := by
  simp [State.capacity, h.readOutCap, h.cfg]

theorem AgreeOnOperands.decodeFixed (p : FixedWidth) : u.decodeFixed p = s.decodeFixed p := by
  simp [State.decodeFixed, h.readInLen, h.readIbuf]

theorem AgreeOnOperands.startInput (i : Instr) : u.startInput i = s.startInput i := by
  simp [State.startInput, h.readInput]

theorem AgreeOnOperands.startOperands (hc : u.cmd = s.cmd) (hw : u.written.cmd = s.written.cmd) :
    u.startOperands = s.startOperands := by
  simp [State.startOperands, State.command, hc, hw, h.startInput]

end

end Sys2Proof.Machine
end

