-- ==== Sys2Proof/Laws/Exec.lean ====
section
/-! SUPPORT. What each shared command procedure can answer, said once: a refusal, or one of the named ends of a command;
and that whether a command is refused depends on its operands alone. -/

namespace Sys2Proof.Machine

/-- Everything ENCODE_GENERAL can do when it answers a next state. -/
theorem encodeGeneral_cases {codec : Codec} {check : Bool} {s t : State} (h : encodeGeneral codec check s = .next t) :
    ∃ b, s.presents b ∧
      ((check = true ∧ s.offersCapacity ∧ s.outCap < paddedLen codec b.length ∧ t = s.raise .bufferTooSmall) ∨
        (paddedLen codec b.length ≤ s.cfg.obufSize ∧ (check = true → s.offersCapacity ∧ paddedLen codec b.length ≤ s.outCap) ∧
          t = s.finish (paddedLen codec b.length) (canonicalText codec b))) := by
  unfold encodeGeneral at h
  split at h
  · exact absurd h (by simp)
  · rename_i b hb
    refine ⟨b, State.readInput_eq_ok.1 hb, ?_⟩
    split at h
    · exact absurd h (by simp)
    · rename_i k hk
      rcases State.capacity_cases hk with ⟨-, -, e⟩ | ⟨-, -, -, e⟩ | ⟨hc, ho, hlt, e⟩
      · exact absurd e (by simp)
      · exact absurd e (by simp)
      · obtain rfl := Option.some.inj e
        exact .inl ⟨hc, ho, hlt, (Host.Outcome.next.inj h).symm⟩
    · rename_i hk
      rcases State.capacity_cases hk with ⟨hc, hle, -⟩ | ⟨hc, ho, hle, -⟩ | ⟨-, -, -, e⟩
      · exact .inr ⟨hle, fun e => absurd (hc.symm.trans e) (by simp), (Host.Outcome.next.inj h).symm⟩
      · exact .inr ⟨hle.trans ho.2, fun _ => ⟨ho, hle⟩, (Host.Outcome.next.inj h).symm⟩
      · exact absurd e (by simp)

/-- Everything DECODE_GENERAL can do when it answers a next state. -/
theorem decodeGeneral_cases {codec : Codec} {check : Bool} {s t : State} (h : decodeGeneral codec check s = .next t) :
    ∃ b, s.presents b ∧
      ((check = true ∧ s.offersCapacity ∧ s.outCap < decLen (width codec) (trim b) ∧ t = s.raise .bufferTooSmall) ∨
        (decLen (width codec) (trim b) ≤ s.cfg.obufSize ∧
          (check = true → s.offersCapacity ∧ decLen (width codec) (trim b) ≤ s.outCap) ∧
          ((validate codec b (trim b) = none ∧ t = s.raise .invalidCharacter) ∨
            ∃ v, validate codec b (trim b) = some v ∧
              t = s.finish (decLen (width codec) (trim b)) (unpack (width codec) v)))) := by
  unfold decodeGeneral at h
  split at h
  · exact absurd h (by simp)
  · rename_i b hb
    refine ⟨b, State.readInput_eq_ok.1 hb, ?_⟩
    split at h
    · exact absurd h (by simp)
    · rename_i k hk
      rcases State.capacity_cases hk with ⟨-, -, e⟩ | ⟨-, -, -, e⟩ | ⟨hc, ho, hlt, e⟩
      · exact absurd e (by simp)
      · exact absurd e (by simp)
      · obtain rfl := Option.some.inj e
        exact .inl ⟨hc, ho, hlt, (Host.Outcome.next.inj h).symm⟩
    · rename_i hk
      have hfit : decLen (width codec) (trim b) ≤ s.cfg.obufSize ∧
          (check = true → s.offersCapacity ∧ decLen (width codec) (trim b) ≤ s.outCap) := by
        rcases State.capacity_cases hk with ⟨hc, hle, -⟩ | ⟨hc, ho, hle, -⟩ | ⟨-, -, -, e⟩
        · exact ⟨hle, fun e => absurd (hc.symm.trans e) (by simp)⟩
        · exact ⟨hle.trans ho.2, fun _ => ⟨ho, hle⟩⟩
        · exact absurd e (by simp)
      refine .inr ⟨hfit.1, hfit.2, ?_⟩
      rcases decodeText_cases codec b (trim b) with ⟨hv, hd⟩ | ⟨v, hv, hd⟩
      · rw [hd] at h; exact .inl ⟨hv, (Host.Outcome.next.inj h).symm⟩
      · rw [hd] at h; exact .inr ⟨v, hv, (Host.Outcome.next.inj h).symm⟩

/-- Everything ENCF16 can do when it answers a next state. -/
theorem execEncf16_cases {s t : State} (h : execEncf16 s = .next t) :
    ∃ b, Memory.readRange s.ibuf 0 16 = some b ∧ t = s.encodeFixed fixed16 b := by
  unfold execEncf16 at h
  split at h
  · exact absurd h (by simp)
  · rename_i b hb; exact ⟨b, State.readIbuf_eq_ok.1 hb, (Host.Outcome.next.inj h).symm⟩

/-- Everything ENCF8 can do when it answers a next state. -/
theorem execEncf8_cases {s t : State} (h : execEncf8 s = .next t) :
    s.written.ival = true ∧ t = s.encodeFixed fixed8 (le64 s.ival) := by
  unfold execEncf8 at h
  split at h
  · exact absurd h (by simp)
  · rename_i v hv
    obtain ⟨hw, rfl⟩ := State.readIval_eq_ok.1 hv
    exact ⟨hw, (Host.Outcome.next.inj h).symm⟩

/-- Everything DECF16 can do when it answers a next state. -/
theorem execDecf16_cases {s t : State} (h : execDecf16 s = .next t) :
    s.written.inLen = true ∧ s.inLen ≤ s.cfg.ibufSize ∧
      ((s.inLen ≠ 22 ∧ t = s.raise .lengthMismatch) ∨
        (s.inLen = 22 ∧ ∃ x, Memory.readRange s.ibuf 0 22 = some x ∧
          ((validate .b64u x 22 = none ∧ t = s.raise .invalidCharacter) ∨
            ∃ v, validate .b64u x 22 = some v ∧ t = s.finish 16 (unpack 6 v)))) := by
  unfold execDecf16 at h
  split at h
  · exact absurd h (by simp)
  · rename_i k hk
    obtain ⟨hw, hle, hc⟩ := State.decodeFixed_cases hk
    refine ⟨hw, hle, ?_⟩
    obtain rfl := Host.Outcome.next.inj h
    rcases hc with ⟨hne, e⟩ | ⟨heq, x, hx, e⟩
    · exact .inl ⟨hne, by rw [Except.error.inj e]⟩
    · rcases decodeText_cases .b64u x 22 with ⟨hv, hd⟩ | ⟨v, hv, hd⟩
      · exact .inr ⟨heq, x, hx, .inl ⟨hv, by rw [Except.error.inj (e.trans hd)]⟩⟩
      · exact absurd (e.trans hd) (by simp)
  · rename_i b hb
    obtain ⟨hw, hle, hc⟩ := State.decodeFixed_cases hb
    refine ⟨hw, hle, ?_⟩
    obtain rfl := Host.Outcome.next.inj h
    rcases hc with ⟨hne, e⟩ | ⟨heq, x, hx, e⟩
    · exact absurd e (by simp)
    · rcases decodeText_cases .b64u x 22 with ⟨hv, hd⟩ | ⟨v, hv, hd⟩
      · exact absurd (e.trans hd) (by simp)
      · exact .inr ⟨heq, x, hx, .inr ⟨v, hv, by rw [Except.ok.inj (e.trans hd)]; rfl⟩⟩

/-- Everything DECF8 can do when it answers a next state. -/
theorem execDecf8_cases {s t : State} (h : execDecf8 s = .next t) :
    s.written.inLen = true ∧ s.inLen ≤ s.cfg.ibufSize ∧
      ((s.inLen ≠ 11 ∧ t = s.raiseIval .lengthMismatch) ∨
        (s.inLen = 11 ∧ ∃ x, Memory.readRange s.ibuf 0 11 = some x ∧
          ((validate .b64u x 11 = none ∧ t = s.raiseIval .invalidCharacter) ∨
            ∃ v, validate .b64u x 11 = some v ∧ t = s.finishIval (unle64 (unpack 6 v))))) := by
  unfold execDecf8 at h
  split at h
  · exact absurd h (by simp)
  · rename_i k hk
    obtain ⟨hw, hle, hc⟩ := State.decodeFixed_cases hk
    refine ⟨hw, hle, ?_⟩
    obtain rfl := Host.Outcome.next.inj h
    rcases hc with ⟨hne, e⟩ | ⟨heq, x, hx, e⟩
    · exact .inl ⟨hne, by rw [Except.error.inj e]⟩
    · rcases decodeText_cases .b64u x 11 with ⟨hv, hd⟩ | ⟨v, hv, hd⟩
      · exact .inr ⟨heq, x, hx, .inl ⟨hv, by rw [Except.error.inj (e.trans hd)]⟩⟩
      · exact absurd (e.trans hd) (by simp)
  · rename_i b hb
    obtain ⟨hw, hle, hc⟩ := State.decodeFixed_cases hb
    refine ⟨hw, hle, ?_⟩
    obtain rfl := Host.Outcome.next.inj h
    rcases hc with ⟨hne, e⟩ | ⟨heq, x, hx, e⟩
    · exact absurd e (by simp)
    · rcases decodeText_cases .b64u x 11 with ⟨hv, hd⟩ | ⟨v, hv, hd⟩
      · exact absurd (e.trans hd) (by simp)
      · exact .inr ⟨heq, x, hx, .inr ⟨v, hv, by rw [Except.ok.inj (e.trans hd)]; rfl⟩⟩

/-- A reserved command. -/
@[simp] theorem reservedCommand_eq (s : State) : reservedCommand s = .next (s.raise .reservedCommand) := rfl

/-! ## Every command -/

/-- The named ends of a command other than DECF8: it wrote a result, or it raised a fault. -/
def EndsPlainly (s t : State) : Prop := (∃ n r, t = s.finish n r) ∨ ∃ k, t = s.raise k

/-- Every next state of a command other than DECF8 is one of the two plain ends. -/
theorem exec_ends {i : Instr} {s t : State} (hi : i ≠ .decf8) (h : exec i s = .next t) : EndsPlainly s t := by
  have enc : ∀ codec check, encodeGeneral codec check s = .next t → EndsPlainly s t := by
    intro codec check h
    obtain ⟨b, -, ⟨-, -, -, rfl⟩ | ⟨-, -, rfl⟩⟩ := encodeGeneral_cases h
    · exact .inr ⟨_, rfl⟩
    · exact .inl ⟨_, _, rfl⟩
  have dec : ∀ codec check, decodeGeneral codec check s = .next t → EndsPlainly s t := by
    intro codec check h
    obtain ⟨b, -, ⟨-, -, -, rfl⟩ | ⟨-, -, ⟨-, rfl⟩ | ⟨v, -, rfl⟩⟩⟩ := decodeGeneral_cases h
    · exact .inr ⟨_, rfl⟩
    · exact .inr ⟨_, rfl⟩
    · exact .inl ⟨_, _, rfl⟩
  have rsv : reservedCommand s = .next t → EndsPlainly s t := fun h => .inr ⟨_, (Host.Outcome.next.inj h).symm⟩
  cases i with
  | enc32 | enc64 | enc32b | enc64b => exact enc _ _ h
  | dec32 | dec64 | dec32b | dec64b => exact dec _ _ h
  | rsv8 | rsv9 | rsv12 | rsv13 => exact rsv h
  | encf16 => obtain ⟨b, -, rfl⟩ := execEncf16_cases h; exact .inl ⟨_, _, rfl⟩
  | encf8 => obtain ⟨-, rfl⟩ := execEncf8_cases h; exact .inl ⟨_, _, rfl⟩
  | decf16 =>
    obtain ⟨-, -, ⟨-, rfl⟩ | ⟨-, x, -, ⟨-, rfl⟩ | ⟨v, -, rfl⟩⟩⟩ := execDecf16_cases h
    · exact .inr ⟨_, rfl⟩
    · exact .inr ⟨_, rfl⟩
    · exact .inl ⟨_, _, rfl⟩
  | decf8 => exact absurd rfl hi

/-- No command stops with a fault of the model: the block's faults are next states. -/
theorem exec_ne_fault (i : Instr) (s : State) (f : Fault) : exec i s ≠ .fault f := by
  have enc : ∀ codec check, encodeGeneral codec check s ≠ .fault f := by
    intro codec check h; unfold encodeGeneral at h; (repeat' split at h) <;> exact absurd h (by simp)
  have dec : ∀ codec check, decodeGeneral codec check s ≠ .fault f := by
    intro codec check h; unfold decodeGeneral at h; (repeat' split at h) <;> exact absurd h (by simp)
  cases i with
  | enc32 | enc64 | enc32b | enc64b => exact enc _ _
  | dec32 | dec64 | dec32b | dec64b => exact dec _ _
  | rsv8 | rsv9 | rsv12 | rsv13 => exact fun h => absurd h (by simp [exec, execRsv8, execRsv9, execRsv12, execRsv13])
  | encf16 => intro h; simp only [exec, execEncf16] at h; split at h <;> exact absurd h (by simp)
  | encf8 => intro h; simp only [exec, execEncf8] at h; split at h <;> exact absurd h (by simp)
  | decf16 => intro h; simp only [exec, execDecf16] at h; split at h <;> exact absurd h (by simp)
  | decf8 => intro h; simp only [exec, execDecf8] at h; split at h <;> exact absurd h (by simp)

/-- Whether, and with which refusal, a command is refused depends on its operands alone. -/
theorem exec_refused_congr {s u : State} (h : AgreeOnOperands s u) (i : Instr) (r : Refusal) :
    exec i u = .refused r ↔ exec i s = .refused r := by
  have enc : ∀ codec check, encodeGeneral codec check u = .refused r ↔ encodeGeneral codec check s = .refused r := by
    intro codec check
    unfold encodeGeneral
    rw [h.readInput]
    split
    · simp
    · rw [h.capacity]; split <;> simp
  have dec : ∀ codec check, decodeGeneral codec check u = .refused r ↔ decodeGeneral codec check s = .refused r := by
    intro codec check
    unfold decodeGeneral
    rw [h.readInput]
    split
    · simp
    · rw [h.capacity]
      split
      · simp
      · simp
      · split <;> simp
  cases i with
  | enc32 | enc64 | enc32b | enc64b => exact enc _ _
  | dec32 | dec64 | dec32b | dec64b => exact dec _ _
  | rsv8 | rsv9 | rsv12 | rsv13 => simp [exec, execRsv8, execRsv9, execRsv12, execRsv13]
  | encf16 => simp only [exec, execEncf16, h.readIbuf]; split <;> simp
  | encf8 => simp only [exec, execEncf8, h.readIval]; split <;> simp
  | decf16 => simp only [exec, execDecf16, h.decodeFixed]; split <;> simp
  | decf8 => simp only [exec, execDecf8, h.decodeFixed]; split <;> simp

/-- The same of the command CMD names. -/
theorem runCommand_refused_congr {s u : State} (h : AgreeOnOperands s u) (hc : u.cmd = s.cmd)
    (hw : u.written.cmd = s.written.cmd) (r : Refusal) : runCommand u = .refused r ↔ runCommand s = .refused r := by
  simp only [runCommand, State.command, hc, hw]
  by_cases hcmd : s.written.cmd = true
  · simpa [hcmd] using exec_refused_congr h (decodeCmd s.cmd) r
  · simp [hcmd]

/-- No command changes the parameters. -/
theorem exec_cfg {i : Instr} {s t : State} (h : exec i s = .next t) : t.cfg = s.cfg := by
  have enc : ∀ codec check, encodeGeneral codec check s = .next t → t.cfg = s.cfg := by
    intro codec check h
    obtain ⟨b, -, ⟨-, -, -, rfl⟩ | ⟨-, -, rfl⟩⟩ := encodeGeneral_cases h <;> rfl
  have dec : ∀ codec check, decodeGeneral codec check s = .next t → t.cfg = s.cfg := by
    intro codec check h
    obtain ⟨b, -, ⟨-, -, -, rfl⟩ | ⟨-, -, ⟨-, rfl⟩ | ⟨v, -, rfl⟩⟩⟩ := decodeGeneral_cases h <;> rfl
  cases i with
  | enc32 | enc64 | enc32b | enc64b => exact enc _ _ h
  | dec32 | dec64 | dec32b | dec64b => exact dec _ _ h
  | rsv8 | rsv9 | rsv12 | rsv13 => obtain rfl := Host.Outcome.next.inj h; rfl
  | encf16 => obtain ⟨b, -, rfl⟩ := execEncf16_cases h; rfl
  | encf8 => obtain ⟨-, rfl⟩ := execEncf8_cases h; rfl
  | decf16 => obtain ⟨-, -, ⟨-, rfl⟩ | ⟨-, x, -, ⟨-, rfl⟩ | ⟨v, -, rfl⟩⟩⟩ := execDecf16_cases h <;> rfl
  | decf8 => obtain ⟨-, -, ⟨-, rfl⟩ | ⟨-, x, -, ⟨-, rfl⟩ | ⟨v, -, rfl⟩⟩⟩ := execDecf8_cases h <;> rfl

/-- What may be started may run: the list of R223 asks for no less than the command reads. -/
theorem State.Startable.ready {s : State} {i : Instr} (h : s.Startable i) : s.Ready i where
  inLenWritten := fun hr => h.inLenWritten (by cases i <;> first | rfl | exact absurd hr (by decide))
  inLenFits := fun hr => h.inLenFits (by cases i <;> first | rfl | exact absurd hr (by decide))
  inputWritten := fun j hj => h.inputWritten j (by
    cases i <;> simp only [inputCount, startCount] at hj ⊢ <;> first | omega | (split at hj <;> omega))
  ivalWritten := h.ivalWritten
  capacityOffered := h.capacityOffered
  freshFits := h.freshFits

/-- With IN_LEN written and within IBUF, and every element below it written, the state presents some bytes. -/
theorem State.presents_of_written {s : State} (hw : s.written.inLen = true) (hle : s.inLen ≤ s.cfg.ibufSize)
    (hr : ∀ j, j < s.inLen → Memory.read s.ibuf j ≠ none) : ∃ b, s.presents b := by
  have hne : Memory.readRange s.ibuf 0 s.inLen ≠ none := by rw [Memory.readRange_ne_none]; simpa using hr
  obtain ⟨b, hb⟩ := Option.ne_none_iff_exists'.1 hne
  have hl := Memory.readRange_length hb
  exact ⟨b, hw, hl.symm, hle, by rw [hl]; exact hb⟩

/-- Where a START is accepted: the input of R223 is in place and the command is ready. -/
theorem State.startable_iff {s : State} {i : Instr} : s.Startable i ↔ s.startInput i = .ok () ∧ s.Ready i := by
  have hc : startNeedsInput i = true → startCount i s.inLen = s.inLen := by
    cases i <;> first | exact fun _ => rfl | exact fun h => absurd h (by decide)
  constructor
  · intro h
    refine ⟨State.startInput_eq_ok.2 fun hn => ?_, h.ready⟩
    exact State.presents_of_written (h.inLenWritten hn) (h.inLenFits hn) (hc hn ▸ h.inputWritten)
  · rintro ⟨hi, hr⟩
    rw [State.startInput_eq_ok] at hi
    refine ⟨fun hn => (hi hn).choose_spec.1, fun hn => (hi hn).choose_spec.2.2.1, ?_, hr.ivalWritten, hr.capacityOffered,
      hr.freshFits⟩
    by_cases hn : startNeedsInput i = true
    · obtain ⟨b, hb⟩ := hi hn
      have hne : Memory.readRange s.ibuf 0 s.inLen ≠ none := by rw [hb.2.1, hb.2.2.2]; simp
      rw [Memory.readRange_ne_none] at hne
      rw [hc hn]
      simpa using hne
    · have := hr.inputWritten
      cases i <;> simp_all [startNeedsInput, startCount, inputCount]

end Sys2Proof.Machine
end

