-- ==== Sys2Proof/Laws/PerInstr.lean ====
section
/-! SUPPORT. Statements about every command as syntax, one lemma per constructor: the family Encoding says that the word of
a command decodes to it, in the register and in bytes, and that its fields are the ones R60 reads from the word. -/

namespace Sys2Proof.Laws

/-- The word of `i` decodes to `i`, and its fields are `i`'s (30_encoding.md R60 to R64). -/
def Encoding.Statement (i : Instr) : Prop :=
  decodeCmd (encode i) = i ∧ decode (encodeBytes i) = .ok i ∧ cmdMode (encode i) = i.mode ∧
    cmdCodec (encode i) = i.codec ∧ cmdDir (encode i) = i.dir ∧ i.wf = true

theorem Encoding.enc32 : Encoding.Statement .enc32 := ⟨rfl, rfl, rfl, rfl, rfl, rfl⟩
theorem Encoding.dec32 : Encoding.Statement .dec32 := ⟨rfl, rfl, rfl, rfl, rfl, rfl⟩
theorem Encoding.enc64 : Encoding.Statement .enc64 := ⟨rfl, rfl, rfl, rfl, rfl, rfl⟩
theorem Encoding.dec64 : Encoding.Statement .dec64 := ⟨rfl, rfl, rfl, rfl, rfl, rfl⟩
theorem Encoding.enc32b : Encoding.Statement .enc32b := ⟨rfl, rfl, rfl, rfl, rfl, rfl⟩
theorem Encoding.dec32b : Encoding.Statement .dec32b := ⟨rfl, rfl, rfl, rfl, rfl, rfl⟩
theorem Encoding.enc64b : Encoding.Statement .enc64b := ⟨rfl, rfl, rfl, rfl, rfl, rfl⟩
theorem Encoding.dec64b : Encoding.Statement .dec64b := ⟨rfl, rfl, rfl, rfl, rfl, rfl⟩
theorem Encoding.rsv8 : Encoding.Statement .rsv8 := ⟨rfl, rfl, rfl, rfl, rfl, rfl⟩
theorem Encoding.rsv9 : Encoding.Statement .rsv9 := ⟨rfl, rfl, rfl, rfl, rfl, rfl⟩
theorem Encoding.encf16 : Encoding.Statement .encf16 := ⟨rfl, rfl, rfl, rfl, rfl, rfl⟩
theorem Encoding.decf16 : Encoding.Statement .decf16 := ⟨rfl, rfl, rfl, rfl, rfl, rfl⟩
theorem Encoding.rsv12 : Encoding.Statement .rsv12 := ⟨rfl, rfl, rfl, rfl, rfl, rfl⟩
theorem Encoding.rsv13 : Encoding.Statement .rsv13 := ⟨rfl, rfl, rfl, rfl, rfl, rfl⟩
theorem Encoding.encf8 : Encoding.Statement .encf8 := ⟨rfl, rfl, rfl, rfl, rfl, rfl⟩
theorem Encoding.decf8 : Encoding.Statement .decf8 := ⟨rfl, rfl, rfl, rfl, rfl, rfl⟩

end Sys2Proof.Laws
end

