-- ==== Sys2Proof/Laws/Step.lean ====
section
/-! SUPPORT. What each host action and each step can do when it answers a next state, said once. -/

namespace Sys2Proof.Machine

theorem step_nil {s : State} (h : s.script = []) : step s = idleStep s := by unfold step; rw [h]

theorem step_cons {s : State} {a : HostAction} {rest : List HostAction} (h : s.script = a :: rest) :
    step s = hostAction a (s.withScript rest) := by unfold step; rw [h]

@[simp] theorem State.withScript_script_self (s : State) : s.withScript s.script = s := rfl

/-- A command CMD names: the next state is the command's own, and CMD has been written. -/
theorem runCommand_next {s t : State} (h : runCommand s = .next t) :
    s.written.cmd = true ∧ exec (decodeCmd s.cmd) s = .next t := by
  unfold runCommand State.command at h
  split at h
  · exact absurd h (by simp)
  · rename_i i hi
    split at hi
    · rename_i hw
      obtain rfl := Except.ok.inj hi
      exact ⟨hw, h⟩
    · exact absurd hi (by simp)

theorem runCommand_cfg {s t : State} (h : runCommand s = .next t) : t.cfg = s.cfg := exec_cfg (runCommand_next h).2

theorem runCommand_of_written {s : State} (h : s.written.cmd = true) : runCommand s = exec (decodeCmd s.cmd) s := by
  simp [runCommand, State.command, h]

theorem runCommand_ne_fault (s : State) (f : Fault) : runCommand s ≠ .fault f := by
  unfold runCommand
  split
  · simp
  · exact exec_ne_fault _ _ _

theorem hostWrite_next {s s' t : State} (h : s.hostWrite s' = .next t) : s.phase ≠ .busy ∧ t = s' := by
  unfold State.hostWrite at h
  split at h
  · exact absurd h (by simp)
  · rename_i hp; exact ⟨by simp [hp], (Host.Outcome.next.inj h).symm⟩
  · rename_i hp; exact ⟨by simp [hp], (Host.Outcome.next.inj h).symm⟩

theorem hostWrite_of_not_busy {s : State} (s' : State) (h : s.phase ≠ .busy) : s.hostWrite s' = .next s' := by
  unfold State.hostWrite
  split <;> first | rfl | contradiction

theorem hostWriteLen_next {s s' t : State} {n : Nat} (h : s.hostWriteLen n s' = .next t) :
    n < 2 ^ s.cfg.lenW ∧ s.phase ≠ .busy ∧ t = s' := by
  unfold State.hostWriteLen at h
  split at h
  · rename_i hn; exact ⟨hn, hostWrite_next h⟩
  · exact absurd h (by simp)

theorem hostWriteIbuf_next {s t : State} {i : Nat} {b : Byte} (h : s.hostWriteIbuf i b = .next t) :
    i < s.cfg.ibufSize ∧ s.phase ≠ .busy ∧ t = s.putIbuf i b := by
  unfold State.hostWriteIbuf at h
  split at h
  · rename_i hn; exact ⟨hn, hostWrite_next h⟩
  · exact absurd h (by simp)

theorem hostStart_next {s t : State} (h : s.hostStart = .next t) :
    s.phase ≠ .busy ∧ s.startOperands = .ok () ∧ (∃ u, runCommand s = .next u) ∧ t = s.begin := by
  unfold State.hostStart at h
  split at h
  · exact absurd h (by simp)
  all_goals
    rename_i hp
    refine ⟨by simp [hp], ?_⟩
    split at h
    · exact absurd h (by simp)
    · rename_i hi
      split at h
      · exact absurd h (by simp)
      · exact absurd h (by simp)
      · rename_i u hu; exact ⟨hi, ⟨u, hu⟩, (Host.Outcome.next.inj h).symm⟩

theorem hostAwait_next {s t : State} (h : s.hostAwait = .next t) :
    (s.phase = .busy ∧ runCommand s = .next t) ∨ (s.phase = .done ∧ t = s) ∨
      (s.phase = .idle ∧ t = s.withScript (.awaitDone :: s.script)) := by
  unfold State.hostAwait at h
  split at h
  · rename_i hp; exact .inl ⟨hp, h⟩
  · rename_i hp; exact .inr (.inl ⟨hp, (Host.Outcome.next.inj h).symm⟩)
  · rename_i hp; exact .inr (.inr ⟨hp, (Host.Outcome.next.inj h).symm⟩)

theorem hostRead_next {s t : State} {x : ReadTarget} (h : s.hostRead x = .next t) :
    (s.phase = .busy → x = .reg .phase) ∧ ∃ r, s.readTarget x = .next r ∧ t = s.record r := by
  unfold State.hostRead at h
  split at h
  · exact absurd h (by simp)
  · rename_i hc
    refine ⟨fun hb => by_contra fun hx => hc ⟨hb, hx⟩, ?_⟩
    split at h
    · rename_i r hr; exact ⟨r, hr, (Host.Outcome.next.inj h).symm⟩
    · exact absurd h (by simp)
    · exact absurd h (by simp)

@[simp] theorem State.readTarget_reg (s : State) (r : HostReg) : s.readTarget (.reg r) = .next (.reg r (s.regValue r)) := rfl

@[simp] theorem State.readTarget_result (s : State) :
    s.readTarget .result = .next (.result ((List.range s.outLen).map s.obufValue)) := rfl

/-- What a host read gives looks at nothing of the host's own. -/
@[simp] theorem State.readTarget_record (s : State) (r : HostRead) (x : ReadTarget) :
    (s.record r).readTarget x = s.readTarget x := by cases x <;> rfl

@[simp] theorem State.readTarget_withScript (s : State) (rest : List HostAction) (x : ReadTarget) :
    (s.withScript rest).readTarget x = s.readTarget x := by cases x <;> rfl

/-- A host read that the block does not turn away, with what it gives. -/
theorem hostRead_eq {s : State} {x : ReadTarget} {r : HostRead} (hp : s.phase = .busy → x = .reg .phase)
    (hr : s.readTarget x = .next r) : s.hostRead x = .next (s.record r) := by
  unfold State.hostRead
  rw [if_neg (fun h => h.2 (hp h.1)), hr]

theorem State.obufValue_of_read {s : State} {i : Nat} {b : Byte} (h : Memory.read s.obuf i = some b) :
    s.obufValue i = b := by simp [State.obufValue, h]

/-- Where all of `OBUF[0..OUT_LEN)` holds values, a host reads those. -/
theorem State.map_obufValue {s : State} {bs : List Byte} (h : s.result = some bs) :
    (List.range s.outLen).map s.obufValue = bs := by
  obtain ⟨hl, hj⟩ := Memory.readRange_eq_some.1 h
  refine List.ext_getElem (by simp [hl]) fun j h1 h2 => ?_
  have := hj j (hl ▸ h2)
  rw [Nat.zero_add, List.getElem?_eq_getElem h2] at this
  simp [State.obufValue_of_read this]

theorem idleStep_next {s t : State} (h : idleStep s = .next t) :
    (s.phase = .busy ∧ runCommand s = .next t) ∨ (s.phase ≠ .busy ∧ t = s) := by
  unfold idleStep at h
  split at h
  · rename_i hp; exact .inl ⟨hp, h⟩
  · rename_i hp; exact .inr ⟨by simp [hp], (Host.Outcome.next.inj h).symm⟩
  · rename_i hp; exact .inr ⟨by simp [hp], (Host.Outcome.next.inj h).symm⟩

/-- Everything a step can do when it answers a next state. -/
theorem step_cases {s t : State} (h : step s = .next t) :
    (s.script = [] ∧ idleStep s = .next t) ∨
      ∃ a rest, s.script = a :: rest ∧ hostAction a (s.withScript rest) = .next t := by
  cases hs : s.script with
  | nil => exact .inl ⟨rfl, by rw [← step_nil hs]; exact h⟩
  | cons a rest => exact .inr ⟨a, rest, rfl, by rw [← step_cons hs]; exact h⟩

/-- No step changes the parameters. -/
theorem step_cfg {s t : State} (h : step s = .next t) : t.cfg = s.cfg := by
  rcases step_cases h with ⟨-, h⟩ | ⟨a, rest, -, h⟩
  · rcases idleStep_next h with ⟨-, h⟩ | ⟨-, rfl⟩
    · exact runCommand_cfg h
    · rfl
  · cases a with
    | writeCmd | writeIval => obtain ⟨-, rfl⟩ := hostWrite_next h; rfl
    | writeInLen | writeOutCap => obtain ⟨-, -, rfl⟩ := hostWriteLen_next h; rfl
    | writeIbuf => obtain ⟨-, -, rfl⟩ := hostWriteIbuf_next h; rfl
    | start => obtain ⟨-, -, -, rfl⟩ := hostStart_next h; rfl
    | awaitDone =>
      rcases hostAwait_next h with ⟨-, h⟩ | ⟨-, rfl⟩ | ⟨-, rfl⟩
      · exact runCommand_cfg (s := s.withScript rest) h
      · rfl
      · rfl
    | read => obtain ⟨-, r, -, rfl⟩ := hostRead_next h; rfl
    | reset => obtain rfl := Host.Outcome.next.inj h; rfl

/-! ## Preparing a command word -/

@[simp] theorem Memory.supply_zero (m : Memory) : Memory.supply m 0 = m := rfl

/-- Supplying elements leaves what was written and writes every element below `n` that held no value. -/
theorem Memory.read_supply (m : Memory) (n j : Nat) :
    Memory.read (Memory.supply m n) j =
      if j < n ∧ Memory.read m j = none then some 0#8 else Memory.read m j := by
  induction n generalizing j with
  | zero => simp
  | succ n ih =>
    unfold Memory.supply
    split
    · rename_i b hb
      rw [ih]
      rw [ih] at hb
      by_cases hj : j = n
      · subst hj
        simp only [Nat.lt_irrefl, false_and, if_false] at hb
        simp [hb]
      · simp [show j < n + 1 ↔ j < n by omega]
    · rename_i hb
      rw [Memory.read_write]
      rw [ih] at hb
      simp only [Nat.lt_irrefl, false_and, if_false] at hb
      by_cases hj : j = n
      · subst hj; simp [hb]
      · rw [if_neg hj, ih]; simp [show j < n + 1 ↔ j < n by omega]

end Sys2Proof.Machine
end

