-- ==== Sys2Proof/Tests/Slice0.lean ====
section
/-! SUPPORT. Tests: every constructor's word from 30_encoding.md R62 and R63, the well-formedness checks on ill-formed
terms, at most two results per command from 95_test_vectors.md, and a witness for the hypotheses of every statement. -/

namespace Sys2Proof.Tests
open Sys2Proof Sys2Proof.Machine

/-! ## Decoding: the words of R62 and R63, and of opcode_table.json, bit by bit -/

theorem test_decode_encode_general :
    decodeCmd 0b0000#4 = .enc32 ∧ decodeCmd 0b0010#4 = .enc64 ∧ decodeCmd 0b0100#4 = .enc32b ∧
      decodeCmd 0b0110#4 = .enc64b := by decide

theorem test_decode_decode_general :
    decodeCmd 0b0001#4 = .dec32 ∧ decodeCmd 0b0011#4 = .dec64 ∧ decodeCmd 0b0101#4 = .dec32b ∧
      decodeCmd 0b0111#4 = .dec64b := by decide

theorem test_decode_fixed_width :
    decodeCmd 0b1010#4 = .encf16 ∧ decodeCmd 0b1011#4 = .decf16 ∧ decodeCmd 0b1110#4 = .encf8 ∧
      decodeCmd 0b1111#4 = .decf8 := by decide

theorem test_decode_reserved :
    decodeCmd 0b1000#4 = .rsv8 ∧ decodeCmd 0b1001#4 = .rsv9 ∧ decodeCmd 0b1100#4 = .rsv12 ∧
      decodeCmd 0b1101#4 = .rsv13 := by decide

theorem test_decode_rejects :
    decode [0x10#8] = .error .notFourBits ∧ decode [] = .error .noWord ∧ decode [0#8, 0#8] = .error .tooLong :=
  ⟨rfl, rfl, rfl⟩

theorem test_encode_words :
    [Instr.enc32, .dec32b, .encf16, .decf8].map encode = [0b0000#4, 0b0101#4, 0b1010#4, 0b1111#4] := by decide

/-! ## Well-formedness refuses -/

theorem test_wf_lenW : Config.wf { lenW := 4, ibufSize := 22, obufSize := 22 } = false := by decide
theorem test_wf_ibuf_small : Config.wf { lenW := 5, ibufSize := 21, obufSize := 22 } = false := by decide
theorem test_wf_ibuf_large : Config.wf { lenW := 5, ibufSize := 32, obufSize := 22 } = false := by decide
theorem test_wf_obuf_small : Config.wf { lenW := 5, ibufSize := 22, obufSize := 21 } = false := by decide
theorem test_wf_obuf_large : Config.wf { lenW := 5, ibufSize := 22, obufSize := 32 } = false := by decide
theorem test_wf_standard : Config.standard.wf = true := by decide

/-- Parameters small enough to evaluate: 5-bit lengths, two buffers of 31 elements. -/
def cfg : Config := { lenW := 5, ibufSize := 31, obufSize := 31 }

theorem test_wf_lines :
    (ScriptLine.wrb (List.replicate 32 0#8)).wf cfg = false ∧ (ScriptLine.wrt (List.replicate 32 0#8)).wf cfg = false ∧
      (ScriptLine.wrInLen 32).wf cfg = false ∧ (ScriptLine.wrOutCap 32).wf cfg = false ∧
      (ScriptLine.command .rsv8).wf cfg = false ∧ (ScriptLine.rawCommand 0#4).wf cfg = false := by decide

/-! ## A small state -/

/-- Every register written, IBUF holding `b`, IN_LEN its length, OUT_CAP `cap`, IVAL `v`. -/
def holding (b : List Byte) (cap : Nat := 31) (v : Word64 := 0#64) : State :=
  { State.reset with
    cfg := cfg
    inLen := b.length
    outCap := cap
    ival := v
    ibuf := Memory.ofBytes 0 b
    written := { cmd := true, inLen := true, outCap := true, ival := true } }

/-- STATUS, OUT_LEN and the result a command leaves. -/
def outcome (i : Instr) (s : State) : Option (BitVec 3 × Nat × Option (List Byte)) :=
  (nextState (exec i s)).map fun t => (statusCode t.status, t.outLen, t.result)

/-- STATUS, OUT_LEN and IVAL a command leaves. -/
def outcomeIval (i : Instr) (s : State) : Option (BitVec 3 × Nat × Word64) :=
  (nextState (exec i s)).map fun t => (statusCode t.status, t.outLen, t.ival)

/-! ## Commands (95_test_vectors.md; the expected values are the spec's) -/

/-- V1: "ZFXJMF5N". -/
theorem test_enc32_block : outcome .enc32 (holding [0xC9#8, 0x6E#8, 0x96#8, 0x17#8, 0xAD#8]) =
    some (0#3, 8, some [0x5A#8, 0x46#8, 0x58#8, 0x4A#8, 0x4D#8, 0x46#8, 0x35#8, 0x4E#8]) := by decide +kernel

/-- V-PACK, FF: "74======". -/
theorem test_enc32_padded : outcome .enc32 (holding [0xFF#8]) =
    some (0#3, 8, some [0x37#8, 0x34#8, 0x3D#8, 0x3D#8, 0x3D#8, 0x3D#8, 0x3D#8, 0x3D#8]) := by decide +kernel

/-- V-PACK, DE AD BE EF: "3q2-7w==". -/
theorem test_enc64_padded : outcome .enc64 (holding [0xDE#8, 0xAD#8, 0xBE#8, 0xEF#8]) =
    some (0#3, 8, some [0x33#8, 0x71#8, 0x32#8, 0x2D#8, 0x37#8, 0x77#8, 0x3D#8, 0x3D#8]) := by decide +kernel

/-- R131, R132: an empty input gives an empty text. -/
theorem test_enc64_empty : outcome .enc64 (holding []) = some (0#3, 0, some []) := by decide +kernel

/-- V-BUF: "MZXW6===" at capacity 8. -/
theorem test_enc32b_fits : outcome .enc32b (holding [0x66#8, 0x6F#8, 0x6F#8] 8) =
    some (0#3, 8, some [0x4D#8, 0x5A#8, 0x58#8, 0x57#8, 0x36#8, 0x3D#8, 0x3D#8, 0x3D#8]) := by decide +kernel

/-- V-BUF: capacity 5 would hold the symbols; the need counts padding. -/
theorem test_enc32b_small : outcome .enc32b (holding [0x66#8, 0x6F#8, 0x6F#8] 5) = some (3#3, 0, some []) := by
  decide +kernel

/-- V-BUF: "Zm8=" at capacity 4. -/
theorem test_enc64b_fits : outcome .enc64b (holding [0x66#8, 0x6F#8] 4) =
    some (0#3, 4, some [0x5A#8, 0x6D#8, 0x38#8, 0x3D#8]) := by decide +kernel

/-- V-BUF: 3 symbols, but the need is 4. -/
theorem test_enc64b_small : outcome .enc64b (holding [0x66#8, 0x6F#8] 3) = some (3#3, 0, some []) := by decide +kernel

/-- V-DEC32: "cpiktmy=". -/
theorem test_dec32_lower_case :
    outcome .dec32 (holding [0x63#8, 0x70#8, 0x69#8, 0x6B#8, 0x74#8, 0x6D#8, 0x79#8, 0x3D#8]) =
      some (0#3, 4, some [0x13#8, 0xD0#8, 0xA9#8, 0xB3#8]) := by decide +kernel

/-- V-DEC32: "MY=A", an interior `=`. -/
theorem test_dec32_interior_pad : outcome .dec32 (holding [0x4D#8, 0x59#8, 0x3D#8, 0x41#8]) = some (1#3, 0, some []) := by
  decide +kernel

/-- V-DEC64: "-_-_". -/
theorem test_dec64_top_values : outcome .dec64 (holding [0x2D#8, 0x5F#8, 0x2D#8, 0x5F#8]) =
    some (0#3, 3, some [0xFB#8, 0xFF#8, 0xBF#8]) := by decide +kernel

/-- V-DEC64: "+/+/". -/
theorem test_dec64_plus_slash : outcome .dec64 (holding [0x2B#8, 0x2F#8, 0x2B#8, 0x2F#8]) = some (1#3, 0, some []) := by
  decide +kernel

/-- V-BUF: "MZXW6===" at capacity 3. -/
theorem test_dec32b_fits :
    outcome .dec32b (holding [0x4D#8, 0x5A#8, 0x58#8, 0x57#8, 0x36#8, 0x3D#8, 0x3D#8, 0x3D#8] 3) =
      some (0#3, 3, some [0x66#8, 0x6F#8, 0x6F#8]) := by decide +kernel

/-- V-BUF: the same at capacity 2. -/
theorem test_dec32b_small :
    outcome .dec32b (holding [0x4D#8, 0x5A#8, 0x58#8, 0x57#8, 0x36#8, 0x3D#8, 0x3D#8, 0x3D#8] 2) =
      some (3#3, 0, some []) := by decide +kernel

/-- V-BUF: "(bad" at capacity 3, the validator runs. -/
theorem test_dec64b_invalid : outcome .dec64b (holding [0x28#8, 0x62#8, 0x61#8, 0x64#8] 3) = some (1#3, 0, some []) := by
  decide +kernel

/-- V-BUF: "(bad" at capacity 2, both conditions hold (R199). -/
theorem test_dec64b_both : outcome .dec64b (holding [0x28#8, 0x62#8, 0x61#8, 0x64#8] 2) = some (3#3, 0, some []) := by
  decide +kernel

/-- V-FIX16: 00 01 … 0F gives "AAECAwQFBgcICQoLDA0ODw". -/
theorem test_encf16 :
    outcome .encf16 (holding [0#8, 1#8, 2#8, 3#8, 4#8, 5#8, 6#8, 7#8, 8#8, 9#8, 10#8, 11#8, 12#8, 13#8, 14#8, 15#8]) =
      some (0#3, 22, some [0x41#8, 0x41#8, 0x45#8, 0x43#8, 0x41#8, 0x77#8, 0x51#8, 0x46#8, 0x42#8, 0x67#8, 0x63#8,
        0x49#8, 0x43#8, 0x51#8, 0x6F#8, 0x4C#8, 0x44#8, 0x41#8, 0x30#8, 0x4F#8, 0x44#8, 0x77#8]) := by decide +kernel

/-- V-FIX16: 22 underscores give FF ×16. -/
theorem test_decf16 : outcome .decf16 (holding (List.replicate 22 0x5F#8)) =
    some (0#3, 16, some (List.replicate 16 0xFF#8)) := by decide +kernel

/-- V-FIX16: `=` at index 21. -/
theorem test_decf16_pad : outcome .decf16 (holding (List.replicate 21 0x41#8 ++ [0x3D#8])) = some (1#3, 0, some []) := by
  decide +kernel

/-- V3: "RgGxr0_n1ZI". -/
theorem test_encf8 : outcome .encf8 (holding [] 0 0x92D5E74FAFB10146#64) =
    some (0#3, 11, some [0x52#8, 0x67#8, 0x47#8, 0x78#8, 0x72#8, 0x30#8, 0x5F#8, 0x6E#8, 0x31#8, 0x5A#8, 0x49#8]) := by
  decide +kernel

/-- V3, decoded, with its dropped bits set ("…ZL"). -/
theorem test_decf8 :
    outcomeIval .decf8 (holding [0x52#8, 0x67#8, 0x47#8, 0x78#8, 0x72#8, 0x30#8, 0x5F#8, 0x6E#8, 0x31#8, 0x5A#8, 0x4C#8]) =
      some (0#3, 8, 0x92D5E74FAFB10146#64) := by decide +kernel

/-- V-FIX8: "(((" is a length fault. -/
theorem test_decf8_length : outcome .decf8 (holding [0x28#8, 0x28#8, 0x28#8]) = some (2#3, 0, some []) := by decide +kernel

/-- V-RSV. -/
theorem test_reserved : [Instr.rsv8, .rsv9, .rsv12, .rsv13].map (fun i => outcome i State.reset) =
    List.replicate 4 (some (4#3, 0, some [])) := by decide +kernel

/-! ## Steps -/

theorem test_wf_no_instance : System.wf cfg [] = false ∧ System.wf cfg (System.reset cfg 1) = true := by decide

/-- R229, U22: START of a reserved code with IN_LEN > IBUF_SIZE is refused, of ENCF8 it is not. -/
theorem test_start_long :
    step { holding [] with inLen := 32, cmd := 8#4, script := [.start] } = .refused .inLenTooLarge ∧
      (nextState (step { holding [] with inLen := 32, cmd := 14#4, script := [.start] })).isSome = true :=
  ⟨rfl, by decide +kernel⟩

/-- R223: START of DECF16 with the wrong IN_LEN and an element of `IBUF[0..IN_LEN)` never written is refused. -/
theorem test_start_unwritten_input :
    step { holding [] with inLen := 1, cmd := 11#4, script := [.start] } = .refused .unwrittenElement := rfl

/-- R26, R28: just after reset a host may read IVAL; no value of it is stated. -/
theorem test_unwritten_host_read :
    (nextState (step (State.reset.withScript [.read (.reg .ival)]))).map (fun t => t.reads.length) = some 1 := rfl

/-- R27, R223: just after reset ENC32 is refused, for IN_LEN has never been written. -/
theorem test_unwritten_refused : exec .enc32 State.reset = .refused (.unwrittenRegister .inLen) := rfl

/-- R220: after reset the block waits for a START. -/
theorem test_reset_waits : step State.reset = .next State.reset := rfl

/-- Every word of the table runs as the first step of a prepared reset state (log entry 14). -/
theorem test_fetch_word_runs :
    ∀ w : Fin 16, (nextState (step (State.reset.withFetchWord 8 w.1))).map (fun t => t.phase) = some .done := by
  decide +kernel

/-- V-LUT: the edges of the inverse tables. -/
theorem test_inverse_tables :
    [0x2B#8, 0x2D#8, 0x2F#8, 0x31#8, 0x32#8, 0x37#8, 0x38#8, 0x3D#8, 0x40#8, 0x5A#8, 0x5F#8, 0x60#8, 0x61#8, 0x7A#8].map
        inv32 =
      [.invalid, .invalid, .invalid, .invalid, .value 26, .value 31, .invalid, .padMark, .invalid, .value 25, .invalid,
        .invalid, .value 0, .value 25] ∧
    [0x2B#8, 0x2D#8, 0x2F#8, 0x31#8, 0x32#8, 0x37#8, 0x38#8, 0x3D#8, 0x40#8, 0x5A#8, 0x5F#8, 0x60#8, 0x61#8, 0x7A#8].map
        inv64 =
      [.invalid, .value 62, .invalid, .value 53, .value 54, .value 59, .value 60, .padMark, .invalid, .value 25, .value 63,
        .invalid, .value 26, .value 51] := by decide +kernel

/-! ## Witnesses: for every statement with hypotheses, a state and operands that meet them -/

/-- A small state with an idle block meets the invariant. -/
theorem holding_inv (b : List Byte) (cap : Nat) (v : Word64) (script : List HostAction) (hb : b.length ≤ 31)
    (hc : cap ≤ 31) : ((holding b cap v).withScript script).Inv where
  cfgWf := show cfg.wf = true by decide
  ibufWf := Memory.wf_ofBytes 0 b
  obufWf := rfl
  ibufIn := fun i hi => by
    have h : (Memory.ofBytes 0 b).read i ≠ none := hi
    rw [Memory.read_ofBytes_zero, ne_eq, List.getElem?_eq_none_iff] at h
    show i < 31
    omega
  obufIn := fun i hi => absurd rfl hi
  inLenIn := show b.length < 32 by omega
  outCapIn := show cap < 32 by omega
  outLenIn := show 0 < 32 by decide
  atIdle := fun _ => ⟨rfl, rfl, rfl⟩
  atDone := fun h => absurd (show Phase.idle = .done from h) (by decide)
  afterFault := fun h => absurd (show Phase.idle = .done from h) (by decide)
  atBusy := fun h => absurd (show Phase.idle = .busy from h) (by decide)

/-- ENC32 on one byte, started: PHASE is BUSY and CMD names ENC32. -/
def running : State := (holding [0x66#8]).begin

theorem running_not_refused : (nextState (runCommand running)).isSome = true := by decide +kernel

theorem running_startable : running.startOperands = .ok () := by decide +kernel

/-- The started state meets the invariant. -/
theorem running_inv (script : List HostAction) : (running.withScript script).Inv where
  cfgWf := show cfg.wf = true by decide
  ibufWf := Memory.wf_ofBytes 0 [0x66#8]
  obufWf := wf_obufWith cfg 1 []
  ibufIn := (holding_inv [0x66#8] 31 0#64 [] (by decide) (by decide)).ibufIn
  obufIn := fun i hi => by
    have h := read_obufWith_ne_none.1 hi
    exact h
  inLenIn := show 1 < 32 by decide
  outCapIn := show 31 < 32 by decide
  outLenIn := Nat.mod_lt _ (by decide)
  atIdle := fun h => absurd (show Phase.busy = .idle from h) (by decide)
  atDone := fun h => absurd (show Phase.busy = .done from h) (by decide)
  afterFault := fun h => absurd (show Phase.busy = .done from h) (by decide)
  atBusy := fun _ => ⟨((AgreeOnOperands.withScript running script).startOperands rfl rfl).trans running_startable,
    fun r h => by
    have h' := (runCommand_refused_congr (AgreeOnOperands.withScript running script) rfl rfl r).1 h
    have h2 := running_not_refused
    rw [h'] at h2
    exact absurd h2 (by simp [nextState])⟩

theorem witness_EveryStepKeepsInvariant :
    (∃ s t : State, s.Inv ∧ s.phase = .busy ∧ step s = .next t) ∧ ∃ s t : State, s.Inv ∧ s.script ≠ [] ∧ step s = .next t :=
  ⟨⟨_, _, running_inv [], rfl, rfl⟩, ⟨_, _, holding_inv [0x66#8] 31 0#64 [.start] (by decide) (by decide), by decide, rfl⟩⟩

theorem witness_StepRunsDecodedCommand :
    (running.phase = .busy ∧ running.written.cmd = true ∧ decodeCmd running.cmd = .enc32 ∧ running.script = []) ∧
      (running.withScript [.awaitDone]).script = .awaitDone :: [] ∧ decodeTableWord 8 15 = some .decf8 :=
  ⟨⟨rfl, rfl, rfl, rfl⟩, rfl, by decide⟩

/-- DEC32 with the operands of `holding` is ready. -/
theorem holding_ready : (holding [0x4D#8, 0x59#8]).Ready .enc32 where
  inLenWritten := fun _ => rfl
  inLenFits := fun _ => by decide
  inputWritten := fun j hj => by
    have h : j < 2 := hj
    interval_cases j <;> decide
  ivalWritten := fun h => absurd h (by decide)
  capacityOffered := fun h => absurd h (by decide)
  freshFits := fun _ b hb => by
    have h : b.length = 2 := hb.2.1.symm
    show paddedLen .b32 b.length ≤ 31
    rw [h]; decide

/-- ENC32 may be started with them. -/
theorem holding_startable : (holding [0x4D#8, 0x59#8]).Startable .enc32 where
  inLenWritten := holding_ready.inLenWritten
  inLenFits := holding_ready.inLenFits
  inputWritten := holding_ready.inputWritten
  ivalWritten := holding_ready.ivalWritten
  capacityOffered := holding_ready.capacityOffered
  freshFits := holding_ready.freshFits

theorem witness_StartTakesPhaseToBusy :
    ∃ s : State, s.script = .start :: [] ∧ s.phase ≠ .busy ∧ s.written.cmd = true ∧ s.Startable (decodeCmd s.cmd) :=
  ⟨(holding [0x4D#8, 0x59#8]).withScript [.start], rfl, by decide, rfl, ⟨holding_startable.1, holding_startable.2,
    holding_startable.3, holding_startable.4, holding_startable.5, holding_startable.6⟩⟩

theorem witness_StartRefusals :
    (∃ s : State, s.script = .start :: [] ∧ s.phase = .busy) ∧
      (∃ s : State, s.script = .start :: [] ∧ s.phase ≠ .busy ∧ s.written.cmd = false) ∧
      ∃ s : State, s.script = .start :: [] ∧ s.phase ≠ .busy ∧ s.written.cmd = true ∧ ¬ s.Startable (decodeCmd s.cmd) :=
  ⟨⟨running.withScript [.start], rfl, rfl⟩, ⟨State.reset.withScript [.start], rfl, by decide, rfl⟩,
    ⟨(State.reset.putCmd 0#4).withScript [.start], rfl, by decide, rfl,
      fun h => absurd (h.inLenWritten rfl) (by decide)⟩⟩

theorem witness_HazardsWhileBusy :
    running.phase = .busy ∧ 31 < 2 ^ running.cfg.lenW ∧ 30 < running.cfg.ibufSize ∧
      (ReadTarget.result ≠ .reg .phase) ∧ (running.withScript [.writeInLen 31]).script = .writeInLen 31 :: [] ∧
      (running.withScript [.writeOutCap 31]).script = .writeOutCap 31 :: [] ∧
      (running.withScript [.writeCmd 15#4]).script = .writeCmd 15#4 :: [] ∧
      (running.withScript [.writeIval 0#64]).script = .writeIval 0#64 :: [] ∧
      (running.withScript [.writeIbuf 30 0#8]).script = .writeIbuf 30 0#8 :: [] ∧
      (running.withScript [.read .result]).script = .read .result :: [] ∧
      (running.withScript [.read (.reg .phase)]).script = .read (.reg .phase) :: [] :=
  ⟨rfl, by decide, by decide, by decide, rfl, rfl, rfl, rfl, rfl, rfl, rfl⟩

theorem witness_StartedCommandEnds :
    (∃ s : State, s.Inv ∧ s.phase = .busy ∧ s.script = []) ∧
      ∃ s : State, s.Inv ∧ s.phase = .busy ∧ ∃ rest, s.script = .awaitDone :: rest :=
  ⟨⟨_, running_inv [], rfl, rfl⟩, ⟨_, running_inv [.awaitDone], rfl, _, rfl⟩⟩

theorem witness_HostWritesOneOperand :
    State.reset.phase ≠ .busy ∧ 65535 < 2 ^ State.reset.cfg.lenW ∧ 2 ^ State.reset.cfg.lenW ≤ 65536 ∧
      1023 < State.reset.cfg.ibufSize ∧ State.reset.cfg.ibufSize ≤ 1024 ∧
      (State.reset.withScript [.writeInLen 65535]).script = .writeInLen 65535 :: [] ∧
      (State.reset.withScript [.writeOutCap 65536]).script = .writeOutCap 65536 :: [] ∧
      (State.reset.withScript [.writeIbuf 1023 0#8]).script = .writeIbuf 1023 0#8 :: [] ∧
      (State.reset.withScript [.writeCmd 0#4]).script = .writeCmd 0#4 :: [] ∧
      (State.reset.withScript [.writeIval 0#64]).script = .writeIval 0#64 :: [] :=
  ⟨by decide, by decide, by decide, by decide, by decide, rfl, rfl, rfl, rfl, rfl⟩

/-- ENC32 on one byte, ended. -/
def ended : State := running.finish 8 (canonicalText .b32 [0x66#8])

theorem witness_HostReadsResults :
    (ended.phase ≠ .busy ∧ State.reset.phase ≠ .busy ∧ ended.written.ival = true ∧ State.reset.written.ival = false ∧
        ended.result ≠ none ∧ 30 < ended.cfg.obufSize ∧ Memory.read ended.obuf 30 ≠ none ∧ ended.cfg.obufSize ≤ 31 ∧
        0 < State.reset.cfg.obufSize ∧ Memory.read State.reset.obuf 0 = none) ∧
      (∀ x, (ended.withScript [.read x]).script = .read x :: []) ∧
      (∃ t, step (ended.withScript [.read .result]) = .next t) ∧
      ∃ t, Sys2Proof.core.run 2 (State.reset.withScript [.read (.obuf 0), .read (.obuf 0)]) = .next t :=
  ⟨⟨by decide, by decide, rfl, rfl, Option.some_ne_none _, by decide, Option.some_ne_none _, by decide, by decide, rfl⟩,
    fun _ => rfl, ⟨_, rfl⟩, ⟨_, rfl⟩⟩

theorem witness_ResetAtAnyTime : (running.withScript [.reset]).script = .reset :: [] ∧ running.phase = .busy := ⟨rfl, rfl⟩

theorem witness_RunIsOver : ended.script = [] ∧ ended.phase ≠ .busy := ⟨rfl, by decide⟩

theorem witness_InstancesAreIndependent :
    (∃ sys', System.step [running, State.reset] 0 = .next sys' ∧ (1 : Nat) ≠ 0) ∧
      ([running, running] : System)[0]? = ([running, State.reset] : System)[0]? ∧
      (∃ sys', System.wf cfg (System.reset cfg 2) = true ∧ System.step (System.reset cfg 2) 1 = .next sys') ∧
      System.wf cfg (System.reset cfg 0) = false := ⟨⟨_, rfl, by decide⟩, rfl, ⟨_, rfl, rfl⟩, rfl⟩

theorem witness_WriteLinePresentsBytes :
    ∃ (s : State) (line : ScriptLine) (bytes : List Byte), (line = .wrb bytes ∨ line = .wrt bytes) ∧ s.phase ≠ .busy ∧
      bytes.length ≤ s.cfg.ibufSize ∧ bytes.length < 2 ^ s.cfg.lenW ∧ s.script = line.actions ++ [.start] :=
  ⟨State.reset.withScript ((ScriptLine.wrt [0x4D#8, 0x59#8]).actions ++ [.start]), .wrt [0x4D#8, 0x59#8], [0x4D#8, 0x59#8],
    .inr rfl, by decide, by decide, by decide, rfl⟩

theorem witness_MnemonicLineRunsCommand :
    ∃ s : State, s.phase ≠ .busy ∧ s.Startable .enc32 ∧ s.script = (ScriptLine.command .enc32).actions ++ [] :=
  ⟨(holding [0x4D#8, 0x59#8]).withScript (ScriptLine.command .enc32).actions, by decide, ⟨holding_startable.1,
    holding_startable.2, holding_startable.3, holding_startable.4, holding_startable.5, holding_startable.6⟩, rfl⟩

theorem witness_PackCutsTheStream :
    ((5 : Nat) = 5 ∨ (5 : Nat) = 6) ∧ 1 < (pack 5 [0xFF#8]).length ∧ (4 : Nat) < 5 ∧ 28 ∈ pack 5 [0xFF#8] ∧
      0 < [0xFF#8].length ∧ 8 * [0xFF#8].length ≤ 8 := by decide

theorem witness_FinalGroupIsZeroFilled :
    8 * (([] : List Byte).length + 1) % 5 ≠ 0 ∧ 8 * (([0#8, 0#8] : List Byte).length + 1) % 6 = 0 := by decide

theorem witness_UnpackReslices :
    ((6 : Nat) = 5 ∨ (6 : Nat) = 6) ∧ (∀ v ∈ [63, 48], v < 2 ^ 6) ∧ 0 < (unpack 6 [63, 48]).length ∧ 1 < [63, 48].length := by
  decide

theorem witness_UnpackOfPack : (5 : Nat) = 5 ∨ (5 : Nat) = 6 := by decide

theorem witness_PackOfUnpack :
    (∀ v ∈ [31, 28], v < 2 ^ 5) ∧ pack 5 (unpack 5 [31, 28]) = [31, 28] ∧ pack 5 (unpack 5 [31, 29]) ≠ [31, 29] := by decide

theorem witness_UnpackIgnoresTrailingBits :
    [12, 25].length = [12, 24].length ∧ ∀ p, p < 8 * decLen 5 [12, 25].length → symbolBit 5 [12, 25] p = symbolBit 5 [12, 24] p := by
  decide

theorem witness_PackStepFormIsPack : (6 : Nat) = 5 ∨ (6 : Nat) = 6 := by decide

theorem witness_UnpackStepFormIsUnpack : ((5 : Nat) = 5 ∨ (5 : Nat) = 6) ∧ ∀ v ∈ [31, 0, 7], v < 2 ^ 5 := by decide

theorem witness_UnpackClosedForms : (63 : Nat) < 64 ∧ (31 : Nat) < 32 := by decide

theorem witness_AlphabetInvariants : (31 : Nat) < 32 ∧ (63 : Nat) < 64 ∧ (25 : Nat) < 26 := by decide

theorem witness_SubstitutionStageAgrees :
    (validate .b64u [0x5F#8, 0x2D#8, 0x3D#8] (trim [0x5F#8, 0x2D#8, 0x3D#8])).isSome := by decide +kernel

theorem witness_TrimIsTheLargestCount :
    1 ≤ [0x4D#8, 0x3D#8].length ∧ (1 = 0 ∨ [0x4D#8, 0x3D#8][1 - 1]? ≠ some pad) := by decide

theorem witness_ValidatorScans :
    (2 ≤ [0x4D#8, 0x59#8].length ∧ (validate .b32 [0x4D#8, 0x59#8] 2).isSome) ∧ validate .b32 [0x4D#8, 0x31#8] 2 = none := by
  decide +kernel

theorem witness_IntegerByteOrder : (List.replicate 8 0x46#8).length = 8 := by decide

/-- The small state presents its bytes. -/
theorem holding_presents (b : List Byte) (cap : Nat) (v : Word64) (h : b.length ≤ 31) : (holding b cap v).presents b :=
  ⟨rfl, rfl, h, by
    have := Memory.readRange_ofBytes b []
    rwa [List.append_nil] at this⟩

theorem holding_offersCapacity (b : List Byte) (cap : Nat) (v : Word64) (h : cap ≤ 31) :
    (holding b cap v).offersCapacity := ⟨rfl, h⟩

theorem witness_FreshEncodeResult :
    (holding (List.replicate 15 7#8)).presents (List.replicate 15 7#8) ∧
      8 * (((List.replicate 15 7#8).length + 4) / 5) ≤ (holding (List.replicate 15 7#8)).cfg.obufSize ∧
      4 * (((List.replicate 15 7#8).length + 2) / 3) ≤ (holding (List.replicate 15 7#8)).cfg.obufSize :=
  ⟨holding_presents _ _ _ (by decide), by decide, by decide⟩

theorem witness_BufferedEncodeResult :
    (holding [1#8] 8).presents [1#8] ∧ (holding [1#8] 8).offersCapacity ∧ 8 * (([1#8].length + 4) / 5) ≤ (holding [1#8] 8).outCap ∧
      (holding [1#8] 7).presents [1#8] ∧ (holding [1#8] 7).outCap < 8 * (([1#8].length + 4) / 5) ∧
      4 * (([1#8].length + 2) / 3) ≤ (holding [1#8] 4).outCap ∧ (holding [1#8] 3).outCap < 4 * (([1#8].length + 2) / 3) :=
  ⟨holding_presents _ _ _ (by decide), holding_offersCapacity _ _ _ (by decide), by decide,
    holding_presents _ _ _ (by decide), by decide, by decide, by decide⟩

/-- "MY" is valid text of both codecs; "M!" of neither. -/
theorem witness_FreshDecodeResult :
    (holding [0x4D#8, 0x59#8]).presents [0x4D#8, 0x59#8] ∧ trim [0x4D#8, 0x59#8] * 6 / 8 ≤ (holding [0x4D#8, 0x59#8]).cfg.obufSize ∧
      validate .b32 [0x4D#8, 0x59#8] 2 = some [12, 24] ∧ validate .b64u [0x4D#8, 0x59#8] 2 = some [12, 24] ∧
      (holding [0x4D#8, 0x21#8]).presents [0x4D#8, 0x21#8] ∧ 1 < trim [0x4D#8, 0x21#8] ∧
      symbolValue .b32 ([0x4D#8, 0x21#8].getD 1 0#8) = none ∧ symbolValue .b64u ([0x4D#8, 0x21#8].getD 1 0#8) = none :=
  ⟨holding_presents _ _ _ (by decide), by decide, by decide +kernel, by decide +kernel, holding_presents _ _ _ (by decide),
    by decide, by decide +kernel, by decide +kernel⟩

theorem witness_BufferedDecodeResult :
    (holding [0x4D#8, 0x59#8] 0).presents [0x4D#8, 0x59#8] ∧ (holding [0x4D#8, 0x59#8] 0).offersCapacity ∧
      (holding [0x4D#8, 0x59#8] 0).outCap < trim [0x4D#8, 0x59#8] * 5 / 8 ∧
      (holding [0x4D#8, 0x59#8] 0).outCap < trim [0x4D#8, 0x59#8] * 6 / 8 ∧
      (holding [0x4D#8, 0x21#8] 1).presents [0x4D#8, 0x21#8] ∧ trim [0x4D#8, 0x21#8] * 6 / 8 ≤ (holding [0x4D#8, 0x21#8] 1).outCap ∧
      trim [0x4D#8, 0x59#8] * 5 / 8 ≤ (holding [0x4D#8, 0x59#8] 1).outCap :=
  ⟨holding_presents _ _ _ (by decide), holding_offersCapacity _ _ _ (by decide), by decide, by decide,
    holding_presents _ _ _ (by decide), by decide, by decide⟩

theorem witness_FixedEncodeResult :
    (List.replicate 16 0xA5#8).length = 16 ∧
      Memory.readRange (holding (List.replicate 16 0xA5#8)).ibuf 0 16 = some (List.replicate 16 0xA5#8) ∧
      (holding []).written.ival = true := ⟨rfl, rfl, rfl⟩

theorem witness_FixedDecode16Result :
    (holding (List.replicate 22 0x41#8)).written.inLen = true ∧
      (holding (List.replicate 22 0x41#8)).inLen ≤ (holding (List.replicate 22 0x41#8)).cfg.ibufSize ∧
      (holding (List.replicate 22 0x41#8)).inLen = 22 ∧ (holding (List.replicate 21 0x41#8)).inLen ≠ 22 ∧
      Memory.readRange (holding (List.replicate 22 0x41#8)).ibuf 0 22 = some (List.replicate 22 0x41#8) ∧
      validate .b64u (List.replicate 22 0x41#8) 22 = some (List.replicate 22 0) ∧
      Memory.readRange (holding (List.replicate 22 0x3D#8)).ibuf 0 22 = some (List.replicate 22 0x3D#8) ∧
      symbolValue .b64u ((List.replicate 22 0x3D#8).getD 21 0#8) = none :=
  ⟨rfl, by decide, rfl, by decide, rfl, by decide +kernel, rfl, by decide +kernel⟩

theorem witness_FixedDecode8Result :
    (holding (List.replicate 11 0x41#8)).written.inLen = true ∧
      (holding (List.replicate 11 0x41#8)).inLen ≤ (holding (List.replicate 11 0x41#8)).cfg.ibufSize ∧
      (holding (List.replicate 11 0x41#8)).inLen = 11 ∧ (holding (List.replicate 12 0x41#8)).inLen ≠ 11 ∧
      Memory.readRange (holding (List.replicate 11 0x41#8)).ibuf 0 11 = some (List.replicate 11 0x41#8) ∧
      validate .b64u (List.replicate 11 0x41#8) 11 = some (List.replicate 11 0) ∧
      Memory.readRange (holding (List.replicate 11 0x2B#8)).ibuf 0 11 = some (List.replicate 11 0x2B#8) ∧
      symbolValue .b64u ((List.replicate 11 0x2B#8).getD 10 0#8) = none :=
  ⟨rfl, by decide, rfl, by decide, rfl, by decide +kernel, rfl, by decide +kernel⟩

theorem witness_ReservedCodesRaise : Instr.rsv13 = .rsv8 ∨ Instr.rsv13 = .rsv9 ∨ Instr.rsv13 = .rsv12 ∨ Instr.rsv13 = .rsv13 := by
  decide

theorem witness_CommandsRunExactlyWhenReady :
    (holding [0x4D#8, 0x59#8]).Ready .enc32 ∧ ¬ State.reset.Ready .enc32 :=
  ⟨holding_ready, fun h => absurd (h.inLenWritten rfl) (by decide)⟩

theorem witness_CommandFrame : ∃ t, Instr.enc64b ≠ .decf8 ∧ exec .enc64b (holding [1#8]) = .next t := ⟨_, by decide, rfl⟩

theorem witness_IntegerDecodeFrame : ∃ t, exec .decf8 (holding (List.replicate 11 0x41#8)) = .next t := ⟨_, rfl⟩

/-- Each of the four faults is met by some command. -/
theorem witness_FaultsByCommand :
    (∃ t, exec .dec32 (holding [0x21#8]) = .next t ∧ t.status = .raised .invalidCharacter) ∧
      (∃ t, exec .decf16 (holding []) = .next t ∧ t.status = .raised .lengthMismatch) ∧
      (∃ t, exec .enc32b (holding [1#8] 7) = .next t ∧ t.status = .raised .bufferTooSmall) ∧
      ∃ t, exec .rsv8 State.reset = .next t ∧ t.status = .raised .reservedCommand :=
  ⟨⟨_, rfl, rfl⟩, ⟨_, rfl, rfl⟩, ⟨_, rfl, rfl⟩, ⟨_, rfl, rfl⟩⟩

theorem witness_FaultEntry :
    ∃ t, exec .decf8 (holding []) = .next t ∧ t.status = .raised .lengthMismatch := ⟨_, rfl, rfl⟩

theorem witness_LengthMismatchExactly :
    (∃ t, exec .decf16 (holding []) = .next t) ∧ ∃ t, exec .decf16 (holding (List.replicate 22 0x41#8)) = .next t :=
  ⟨⟨_, rfl⟩, ⟨_, rfl⟩⟩

theorem witness_BufferTooSmallExactly :
    (∃ t, exec .dec64b (holding [0x4D#8, 0x59#8] 0) = .next t) ∧ ∃ t, exec .dec64b (holding [0x4D#8, 0x59#8] 1) = .next t :=
  ⟨⟨_, rfl⟩, ⟨_, rfl⟩⟩

theorem witness_InvalidCharacterExactly :
    (∃ t, exec .dec64b (holding [0x4D#8, 0x21#8] 1) = .next t) ∧ ∃ t, exec .decf8 (holding (List.replicate 11 0x21#8)) = .next t :=
  ⟨⟨_, rfl⟩, ⟨_, rfl⟩⟩

/-- The same operands after different histories: OBUF, STATUS, OUT_LEN and PHASE differ, and IBUF past IN_LEN. -/
theorem witness_ResultDependsOnOperandsOnly :
    ended.cfg = (holding [0x66#8]).cfg ∧ ended.inLen = (holding [0x66#8]).inLen ∧
      ended.outCap = (holding [0x66#8]).outCap ∧ ended.ival = (holding [0x66#8]).ival ∧
      ended.written = (holding [0x66#8]).written ∧ (holding [0x66#8]).outLen ≠ ended.outLen ∧
      (∀ j, j < (if Instr.enc64 = .encf16 then 16 else (holding [0x66#8]).inLen) →
        Memory.read (ended.putIbuf 1 7#8).ibuf j = Memory.read (holding [0x66#8]).ibuf j) ∧
      ∃ s', exec .enc64 (holding [0x66#8]) = .next s' :=
  ⟨rfl, rfl, rfl, rfl, rfl, by decide, by decide, _, rfl⟩

/-- "MY======" and "Zg==" are what 66 encodes to. -/
theorem witness_GeneralRoundTrip :
    ((holding [0x66#8]).presents [0x66#8] ∧
        (holding [0x4D#8, 0x59#8, 0x3D#8, 0x3D#8, 0x3D#8, 0x3D#8, 0x3D#8, 0x3D#8]).presents
          [0x4D#8, 0x59#8, 0x3D#8, 0x3D#8, 0x3D#8, 0x3D#8, 0x3D#8, 0x3D#8] ∧
        Yields .enc32 (holding [0x66#8]) [0x4D#8, 0x59#8, 0x3D#8, 0x3D#8, 0x3D#8, 0x3D#8, 0x3D#8, 0x3D#8]) ∧
      (holding [0x5A#8, 0x67#8, 0x3D#8, 0x3D#8]).presents [0x5A#8, 0x67#8, 0x3D#8, 0x3D#8] ∧
      Yields .enc64 (holding [0x66#8]) [0x5A#8, 0x67#8, 0x3D#8, 0x3D#8] :=
  ⟨⟨holding_presents _ _ _ (by decide), holding_presents _ _ _ (by decide), _, rfl, rfl, rfl, rfl, rfl⟩,
    holding_presents _ _ _ (by decide), _, rfl, rfl, rfl, rfl, rfl⟩

/-- Sixteen zero bytes and the integer 0. -/
theorem witness_FixedRoundTrip :
    (holding (List.replicate 22 0x41#8)).presents (List.replicate 22 0x41#8) ∧
      Memory.readRange (holding (List.replicate 16 0#8)).ibuf 0 16 = some (List.replicate 16 0#8) ∧
      Yields .encf16 (holding (List.replicate 16 0#8)) (List.replicate 22 0x41#8) ∧
      (holding (List.replicate 11 0x41#8)).presents (List.replicate 11 0x41#8) ∧
      Yields .encf8 (holding []) (List.replicate 11 0x41#8) :=
  ⟨holding_presents _ _ _ (by decide), rfl, ⟨_, rfl, rfl, rfl, rfl, rfl⟩, holding_presents _ _ _ (by decide),
    ⟨_, rfl, rfl, rfl, rfl, rfl⟩⟩

/-- The same texts, presented to DEC64. -/
theorem witness_FixedTextDecodesGenerally :
    16 ≤ (holding (List.replicate 22 0x41#8)).cfg.obufSize ∧
      (holding (List.replicate 22 0x41#8)).presents (List.replicate 22 0x41#8) ∧
      Memory.readRange (holding (List.replicate 16 0#8)).ibuf 0 16 = some (List.replicate 16 0#8) ∧
      Yields .encf16 (holding (List.replicate 16 0#8)) (List.replicate 22 0x41#8) :=
  ⟨by decide, witness_FixedRoundTrip.1, witness_FixedRoundTrip.2.1, witness_FixedRoundTrip.2.2.1⟩

/-- "Zg==" and "MY======" again, now decoded. -/
theorem witness_ReencodingCanonicalText :
    ((holding [0x5A#8, 0x67#8, 0x3D#8, 0x3D#8]).presents [0x5A#8, 0x67#8, 0x3D#8, 0x3D#8] ∧
        (holding [0x66#8]).presents [0x66#8] ∧
        [0x5A#8, 0x67#8, 0x3D#8, 0x3D#8].length ≤ (holding [0x66#8]).cfg.obufSize ∧
        (∃ b, [0x5A#8, 0x67#8, 0x3D#8, 0x3D#8] = canonicalText .b64u b) ∧
        Yields .dec64 (holding [0x5A#8, 0x67#8, 0x3D#8, 0x3D#8]) [0x66#8]) ∧
      (∃ b, [0x4D#8, 0x59#8, 0x3D#8, 0x3D#8, 0x3D#8, 0x3D#8, 0x3D#8, 0x3D#8] = canonicalText .b32 b) ∧
      Yields .dec32 (holding [0x4D#8, 0x59#8, 0x3D#8, 0x3D#8, 0x3D#8, 0x3D#8, 0x3D#8, 0x3D#8]) [0x66#8] :=
  ⟨⟨holding_presents _ _ _ (by decide), holding_presents _ _ _ (by decide), by decide, ⟨[0x66#8], rfl⟩,
      ⟨_, rfl, rfl, rfl, rfl, rfl⟩⟩, ⟨[0x66#8], rfl⟩, ⟨_, rfl, rfl, rfl, rfl, rfl⟩⟩

theorem witness_PaddingTolerance :
    (holding [0x4D#8, 0x59#8]).presents [0x4D#8, 0x59#8] ∧
      (holding ([0x4D#8, 0x59#8] ++ List.replicate 11 pad)).presents ([0x4D#8, 0x59#8] ++ List.replicate 11 pad) ∧
      ∃ s', exec .dec32b (holding [0x4D#8, 0x59#8]) = .next s' :=
  ⟨holding_presents _ _ _ (by decide), holding_presents _ _ _ (by decide), _, rfl⟩

/-- "aB" and "Ab", which differ in both directions. -/
theorem witness_DecodeIgnoresCaseInB32 :
    (holding [0x61#8, 0x42#8]).presents [0x61#8, 0x42#8] ∧ (holding [0x41#8, 0x62#8]).presents [0x41#8, 0x62#8] ∧
      [0x41#8, 0x62#8].map foldCase = [0x61#8, 0x42#8].map foldCase ∧
      (∃ s', exec .dec32 (holding [0x61#8, 0x42#8]) = .next s') ∧ ∃ s', exec .dec32b (holding [0x61#8, 0x42#8]) = .next s' :=
  ⟨holding_presents _ _ _ (by decide), holding_presents _ _ _ (by decide), by decide, ⟨_, rfl⟩, ⟨_, rfl⟩⟩

theorem witness_BufferedEqualsFresh :
    (holding [0x66#8] 8).presents [0x66#8] ∧ (holding [0x66#8] 8).offersCapacity ∧
      paddedLen .b32 [0x66#8].length ≤ (holding [0x66#8] 8).outCap ∧ paddedLen .b64u [0x66#8].length ≤ (holding [0x66#8] 8).outCap ∧
      decLen 5 (trim [0x66#8]) ≤ (holding [0x66#8] 8).outCap ∧ decLen 6 (trim [0x66#8]) ≤ (holding [0x66#8] 8).outCap ∧
      ([0x4D#8, 0x59#8, 0x3D#8, 0x3D#8, 0x3D#8, 0x3D#8, 0x3D#8, 0x3D#8] : List Byte).length ≤ (holding [0x66#8] 8).outCap ∧
      Yields .enc32b (holding [0x66#8] 8) [0x4D#8, 0x59#8, 0x3D#8, 0x3D#8, 0x3D#8, 0x3D#8, 0x3D#8, 0x3D#8] :=
  ⟨holding_presents _ _ _ (by decide), holding_offersCapacity _ _ _ (by decide), by decide, by decide, by decide, by decide,
    by decide, _, rfl, rfl, rfl, rfl, rfl⟩

theorem witness_LastFixedSymbol : (List.replicate 16 0xFF#8).length = 16 ∧ (fixedText (List.replicate 16 0xFF#8))[21]? = some 0x77#8 := by
  decide +kernel

end Sys2Proof.Tests
end

section
/-! PROOFS. 10_state.md R24: what a command answers is a function of its operands. Two states that agree on the
registers and on the elements of IBUF the command reads end it in the same way. -/

namespace Sys2Proof.Machine

/-! ## The operand reads of two states that agree -/

/-- A range reads alike in two buffers that agree on each of its elements. -/
theorem Memory.readRange_congr {m m' : Memory} {i n : Nat}
    (h : ∀ j, j < n → Memory.read m' (i + j) = Memory.read m (i + j)) :
    Memory.readRange m' i n = Memory.readRange m i n :=
  Option.ext fun bs => by
    simp only [Memory.readRange_eq_some]
    exact and_congr_right fun _ => forall₂_congr fun j hj => by rw [h j hj]

/-- Two states agree on every operand but IBUF, of which they agree on the first `n` elements. -/
structure AgreeUpTo (n : Nat) (s u : State) : Prop where
  registers : AgreeOnOperands s { u with ibuf := s.ibuf }
  elements : ∀ j, j < n → Memory.read u.ibuf j = Memory.read s.ibuf j

section
variable {n : Nat} {s u : State} (h : AgreeUpTo n s u)
include h

theorem AgreeUpTo.readInLen : u.readInLen = s.readInLen := h.registers.readInLen

theorem AgreeUpTo.readIval : u.readIval = s.readIval := h.registers.readIval

theorem AgreeUpTo.capacity (check : Bool) (need : Nat) : u.capacity check need = s.capacity check need :=
  h.registers.capacity check need

theorem AgreeUpTo.readIbuf {k : Nat} (hk : k ≤ n) : u.readIbuf k = s.readIbuf k := by
  have hr : Memory.readRange u.ibuf 0 k = Memory.readRange s.ibuf 0 k :=
    Memory.readRange_congr fun j hj => h.elements (0 + j) (by omega)
  simp only [State.readIbuf, hr]

end

theorem AgreeUpTo.readInput {s u : State} (h : AgreeUpTo s.inLen s u) : u.readInput = s.readInput := by
  unfold State.readInput
  rw [h.readInLen]
  cases hn : s.readInLen with
  | error r => rfl
  | ok n =>
    obtain ⟨-, -, rfl⟩ := State.readInLen_eq_ok.1 hn
    exact h.readIbuf le_rfl

theorem AgreeUpTo.decodeFixed {s u : State} (h : AgreeUpTo s.inLen s u) (p : FixedWidth) :
    u.decodeFixed p = s.decodeFixed p := by
  unfold State.decodeFixed
  rw [h.readInLen]
  cases hn : s.readInLen with
  | error r => rfl
  | ok n =>
    obtain ⟨-, -, rfl⟩ := State.readInLen_eq_ok.1 hn
    by_cases hp : s.inLen = p.fc
    · simp only [hp, h.readIbuf hp.ge]
    · simp only [hp, if_false]

/-! ## How long a decoded text is -/

theorem decodeText_length {codec : Codec} {t b : List Byte} {k : Nat} (hk : k ≤ t.length)
    (h : decodeText codec t k = .ok b) : b.length = decLen (width codec) k := by
  obtain ⟨-, hd⟩ | ⟨v, hv, hd⟩ := decodeText_cases codec t k
  · exact absurd (h.symm.trans hd) nofun
  · rw [Except.ok.inj (h.symm.trans hd), unpack_length, validate_length hk hv]

theorem State.decodeFixed_length {s : State} {p : FixedWidth} {b : List Byte} (h : s.decodeFixed p = .ok (.ok b)) :
    b.length = decLen 6 p.fc := by
  obtain ⟨-, -, ⟨-, hd⟩ | ⟨-, t, ht, hd⟩⟩ := State.decodeFixed_cases h
  · exact absurd hd nofun
  · exact decodeText_length (Memory.readRange_length ht).ge hd.symm

/-! ## Ending alike -/

/-- Command `i` comes out alike at `s` and at `u`: refused for one reason, or ended with one result or one fault. Only
DECF8 ends by writing IVAL. -/
inductive EndsAlike (s u : State) :
    Instr → Host.Outcome State Fault Refusal → Host.Outcome State Fault Refusal → Prop
  | refused {i : Instr} (r : Refusal) : EndsAlike s u i (.refused r) (.refused r)
  | finish {i : Instr} {n : Nat} {r : List Byte} (hr : r.length = n) :
      EndsAlike s u i (.next (s.finish n r)) (.next (u.finish n r))
  | raise {i : Instr} (k : FaultKind) : EndsAlike s u i (.next (s.raise k)) (.next (u.raise k))
  | finishIval (v : Word64) : EndsAlike s u .decf8 (.next (s.finishIval v)) (.next (u.finishIval v))
  | raiseIval (k : FaultKind) : EndsAlike s u .decf8 (.next (s.raiseIval k)) (.next (u.raiseIval k))

/-- A command that wrote a result of OUT_LEN elements presents that result to the host. -/
theorem State.finish_result (s : State) {n : Nat} {r : List Byte} (hr : r.length = n) :
    (s.finish n r).result = some r := by
  subst hr
  exact readRange_obufWith s.cfg s.draws r

section
variable {i : Instr} {s u s' : State} {o : Host.Outcome State Fault Refusal} (h : EndsAlike s u i (.next s') o)
include h

/-- What a host may rely on is the same after commands that end alike. After a DECF8 that faults IVAL is not. -/
theorem EndsAlike.same_outcome (hv : u.ival = s.ival) :
    ∃ u', o = .next u' ∧ u'.status = s'.status ∧ u'.outLen = s'.outLen ∧ (i ≠ .decf8 → u'.result = s'.result) ∧
      (s'.status = .ok → u'.ival = s'.ival) := by
  cases h with
  | finish hr => exact ⟨_, rfl, rfl, rfl, fun _ => by rw [s.finish_result hr, u.finish_result hr], fun _ => hv⟩
  | raise k => exact ⟨_, rfl, rfl, rfl, fun _ => rfl, nofun⟩
  | finishIval v => exact ⟨_, rfl, rfl, rfl, fun hi => absurd rfl hi, fun _ => rfl⟩
  | raiseIval k => exact ⟨_, rfl, rfl, rfl, fun hi => absurd rfl hi, nofun⟩

theorem EndsAlike.operands_kept :
    s'.cmd = s.cmd ∧ s'.inLen = s.inLen ∧ s'.outCap = s.outCap ∧ s'.ibuf = s.ibuf ∧ (i ≠ .decf8 → s'.ival = s.ival) := by
  cases h with
  | finish hr => exact ⟨rfl, rfl, rfl, rfl, fun _ => rfl⟩
  | raise k => exact ⟨rfl, rfl, rfl, rfl, fun _ => rfl⟩
  | finishIval v => exact ⟨rfl, rfl, rfl, rfl, fun hi => absurd rfl hi⟩
  | raiseIval k => exact ⟨rfl, rfl, rfl, rfl, fun hi => absurd rfl hi⟩

end

/-! ## Each command ends alike where its operands agree -/

section
variable {s u : State} (a : AgreeUpTo s.inLen s u)
include a

theorem encodeGeneral_endsAlike (i : Instr) (codec : Codec) (check : Bool) :
    EndsAlike s u i (encodeGeneral codec check s) (encodeGeneral codec check u) := by
  unfold encodeGeneral
  rw [a.readInput]
  split
  · exact .refused _
  · next b _ =>
    rw [a.capacity]
    split
    · exact .refused _
    · exact .raise _
    · exact .finish (canonicalText_length codec b)

theorem decodeGeneral_endsAlike (i : Instr) (codec : Codec) (check : Bool) :
    EndsAlike s u i (decodeGeneral codec check s) (decodeGeneral codec check u) := by
  unfold decodeGeneral
  rw [a.readInput]
  split
  · exact .refused _
  · next t _ =>
    rw [a.capacity]
    split
    · exact .refused _
    · exact .raise _
    · split
      · exact .raise _
      · next hb => exact .finish (decodeText_length (trim_le t) hb)

theorem execDecf16_endsAlike (i : Instr) : EndsAlike s u i (execDecf16 s) (execDecf16 u) := by
  unfold execDecf16
  rw [a.decodeFixed]
  split
  · exact .refused _
  · exact .raise _
  · next hb => exact .finish (State.decodeFixed_length hb)

theorem execDecf8_endsAlike : EndsAlike s u .decf8 (execDecf8 s) (execDecf8 u) := by
  unfold execDecf8
  rw [a.decodeFixed]
  split
  · exact .refused _
  · exact .raiseIval _
  · exact .finishIval _

theorem execEncf8_endsAlike (i : Instr) : EndsAlike s u i (execEncf8 s) (execEncf8 u) := by
  unfold execEncf8
  rw [a.readIval]
  split
  · exact .refused _
  · exact .finish (by simp [symCount, fixed8])

end

theorem execEncf16_endsAlike {s u : State} (a : AgreeUpTo 16 s u) (i : Instr) :
    EndsAlike s u i (execEncf16 s) (execEncf16 u) := by
  unfold execEncf16
  rw [a.readIbuf (k := fixed16.fb) le_rfl]
  split
  · exact .refused _
  · next b hb =>
    have hlen : b.length = 16 := Memory.readRange_length (State.readIbuf_eq_ok.1 hb)
    exact .finish (by simp [hlen, symCount, fixed16])

/-- Every command ends alike at two states that agree on what R24 lists. -/
theorem exec_endsAlike {i : Instr} {s u : State} (a : AgreeUpTo (if i = .encf16 then 16 else s.inLen) s u) :
    EndsAlike s u i (exec i s) (exec i u) := by
  have agree : i ≠ .encf16 → AgreeUpTo s.inLen s u := fun hne => by rwa [if_neg hne] at a
  cases i with
  | enc32 | enc64 | enc32b | enc64b => exact encodeGeneral_endsAlike (agree nofun) _ _ _
  | dec32 | dec64 | dec32b | dec64b => exact decodeGeneral_endsAlike (agree nofun) _ _ _
  | rsv8 | rsv9 | rsv12 | rsv13 => exact .raise .reservedCommand
  | encf16 => exact execEncf16_endsAlike (by rwa [if_pos rfl] at a) _
  | decf16 => exact execDecf16_endsAlike (agree nofun) _
  | encf8 => exact execEncf8_endsAlike (agree nofun) _
  | decf8 => exact execDecf8_endsAlike (agree nofun)

/-- Settles O52: the command ends alike at both states, and however it ends it keeps its operands. -/
theorem resultDependsOnOperandsOnly : Obligations.ResultDependsOnOperandsOnly := by
  intro i s u s' hcfg hlen hcap hival hwritten hibuf h
  have a : AgreeUpTo (if i = .encf16 then 16 else s.inLen) s u :=
    ⟨⟨hcfg, hlen, hcap, hival, rfl, by rw [hwritten], by rw [hwritten], by rw [hwritten]⟩, hibuf⟩
  have alike : EndsAlike s u i (.next s') (exec i u) := h ▸ exec_endsAlike a
  exact ⟨alike.same_outcome hival, alike.operands_kept⟩

end Sys2Proof.Machine
end

section
/-! PROOFS. The alphabet invariants (30_encoding.md R72). All but the lower-case clause follow from one fact of the
tables, symbolValue_mapSymbol: INV undoes ALPHA, so the symbols differ from one another and from the padding
character. -/

namespace Sys2Proof.Machine

/-- A character is the symbol of value `v` exactly when its entry of the inverse table holds `v` (R113). -/
theorem symbolValue_eq_some_iff {codec : Codec} {c : Byte} {v : Nat} :
    symbolValue codec c = some v ↔ invOf codec c = .value v := by
  unfold symbolValue
  cases invOf codec c <;> simp

/-- The inverse table at a symbol holds the symbol's position (R72). -/
theorem invOf_mapSymbol {codec : Codec} {v : Nat} (h : v < 2 ^ width codec) :
    invOf codec (mapSymbol codec v) = .value v :=
  symbolValue_eq_some_iff.1 (symbolValue_mapSymbol h)

/-- Two group values with one symbol are equal. -/
theorem mapSymbol_inj {codec : Codec} {v u : Nat} (hv : v < 2 ^ width codec) (hu : u < 2 ^ width codec)
    (h : mapSymbol codec v = mapSymbol codec u) : v = u := by
  have e := symbolValue_mapSymbol hv
  rw [h, symbolValue_mapSymbol hu] at e
  exact (Option.some.inj e).symm

/-- The alphabet lists the symbols of the group values in order. -/
theorem alphabet_eq_map_mapSymbol (codec : Codec) :
    alphabet codec = (List.range (2 ^ width codec)).map (mapSymbol codec) := by
  refine List.ext_getElem (by simp) fun v h _ => ?_
  rw [List.getElem_map, List.getElem_range, mapSymbol, List.getD_eq_getElem _ _ h]

theorem alphabet_nodup (codec : Codec) : (alphabet codec).Nodup := by
  rw [alphabet_eq_map_mapSymbol]
  exact List.nodup_range.map_on fun v hv u hu => mapSymbol_inj (List.mem_range.1 hv) (List.mem_range.1 hu)

theorem pad_notMem_alphabet (codec : Codec) : pad ∉ alphabet codec := by
  rw [alphabet_eq_map_mapSymbol, List.mem_map]
  rintro ⟨v, hv, h⟩
  exact mapSymbol_ne_pad (List.mem_range.1 hv) h

/-- INV32 reads the lower-case form of a letter as the letter (R72). -/
theorem invOf_b32_lowerCase {v : Nat} (h : v < 26) : invOf .b32 (mapSymbol .b32 v + 0x20#8) = .value v := by
  have key : ∀ v : Fin 26, invOf .b32 (mapSymbol .b32 v.1 + 0x20#8) = .value v.1 := by decide
  exact key ⟨v, h⟩

/-- Settles O29: no duplicates and no padding character, because INV undoes ALPHA; the lower-case letters by evaluation. -/
theorem alphabetInvariants : Obligations.AlphabetInvariants :=
  ⟨fun codec => ⟨alphabet_nodup codec, alphabet_length codec, pad_notMem_alphabet codec⟩,
    fun _ h => invOf_mapSymbol (codec := .b32) h, fun _ h => invOf_mapSymbol (codec := .b64u) h,
    fun _ => invOf_b32_lowerCase⟩

end Sys2Proof.Machine
end

section
/-! PROOFS. The packer and the unpacker, bit by bit (40_datapath.md R90 to R92, R98, R99), and the counts of the padding
controller (R109). A group and an unpacked byte are both values read from bits, so what each holds follows from one
fact: such a value has its length's range and exactly those bits (testBit_bitsValue, bitsValue_eq). -/

namespace Sys2Proof.Machine

/-- A number below `2^w` is the value of its own bits, read from the most significant down. -/
theorem bitsValue_eq {w v : Nat} {bit : Nat → Bool} (hv : v < 2 ^ w)
    (h : ∀ t, t < w → bit t = v.testBit (w - 1 - t)) : bitsValue w bit = v := by
  refine Nat.eq_of_testBit_eq fun i => ?_
  by_cases hi : i < w
  · have hb := testBit_bitsValue bit (show w - 1 - i < w by omega)
    rwa [h _ (by omega), show w - 1 - (w - 1 - i) = i by omega] at hb
  · have hw : 2 ^ w ≤ 2 ^ i := Nat.pow_le_pow_right (by omega) (by omega)
    rw [Nat.testBit_lt_two_pow ((bitsValue_lt w bit).trans_le hw), Nat.testBit_lt_two_pow (hv.trans_le hw)]

/-! ## The bit streams -/

/-- Stream position `8i + j` is bit `7 - j` of byte `i` (R90). -/
theorem streamBit_byte {b : List Byte} {i j : Nat} (hi : i < b.length) (hj : j ≤ 7) :
    streamBit b (8 * i + j) = (b.getD i 0#8).getLsbD (7 - j) := by
  rw [streamBit, show (8 * i + j) / 8 = i by omega, show (8 * i + j) % 8 = j by omega, List.getElem?_eq_getElem hi,
    List.getD_eq_getElem _ _ hi]

/-- The stream is zero past its end (R91). -/
theorem streamBit_past_end {b : List Byte} {p : Nat} (h : 8 * b.length ≤ p) : streamBit b p = false := by
  rw [streamBit, List.getElem?_eq_none (by omega)]

/-- Position `w·i + t` of the symbols' bits is bit `w - 1 - t` of symbol `i` (R98). -/
theorem symbolBit_symbol {w : Nat} {s : List Nat} {i t : Nat} (hi : i < s.length) (ht : t < w) :
    symbolBit w s (w * i + t) = (s.getD i 0).testBit (w - 1 - t) := by
  have hdiv : (w * i + t) / w = i := by
    rw [Nat.mul_add_div (by omega), Nat.div_eq_of_lt ht, Nat.add_zero]
  rw [symbolBit, hdiv, Nat.mul_add_mod, Nat.mod_eq_of_lt ht, List.getElem?_eq_getElem hi, List.getD_eq_getElem _ _ hi]

/-! ## The groups of PACK and the bytes of UNPACK -/

/-- Group `q` of PACK (R91). -/
theorem pack_getElem? {w q : Nat} {b : List Byte} (h : q < symCount w b.length) :
    (pack w b)[q]? = some (bitsValue w fun t => streamBit b (q * w + t)) := by
  simp [pack, h]

/-- Byte `j` of UNPACK (R98). -/
theorem unpack_getElem? {w j : Nat} {s : List Nat} (h : j < decLen w s.length) :
    (unpack w s)[j]? = some (BitVec.ofNat 8 (bitsValue 8 fun t => symbolBit w s (8 * j + t))) := by
  simp [unpack, h]

/-- Bit `w - 1 - t` of group `q` is stream position `q·w + t` (R91). -/
theorem testBit_pack {w q t : Nat} {b : List Byte} (hq : q < symCount w b.length) (ht : t < w) :
    ((pack w b).getD q 0).testBit (w - 1 - t) = streamBit b (q * w + t) := by
  rw [List.getD_eq_getElem?_getD, pack_getElem? hq, Option.getD_some,
    testBit_bitsValue (fun t => streamBit b (q * w + t)) ht]

/-- Bit `7 - t` of byte `j` is position `8j + t` of the symbols' bits (R98). -/
theorem getLsbD_unpack {w j t : Nat} {s : List Nat} (hj : j < decLen w s.length) (ht : t ≤ 7) :
    ((unpack w s).getD j 0#8).getLsbD (7 - t) = symbolBit w s (8 * j + t) := by
  rw [List.getD_eq_getElem?_getD, unpack_getElem? hj, Option.getD_some, BitVec.getLsbD_ofNat,
    decide_eq_true (show 7 - t < 8 by omega), Bool.true_and]
  exact testBit_bitsValue (w := 8) (fun t => symbolBit w s (8 * j + t)) (by omega)

/-- Settles O19: each clause is the law of one step of PACK, from the stream to the groups. -/
theorem packCutsTheStream : Obligations.PackCutsTheStream := by
  intro w b _
  refine ⟨pack_length w b, fun g => pack_lt, fun q t hq ht => ?_, fun i j => streamBit_byte, fun p => streamBit_past_end⟩
  exact testBit_pack (by simpa using hq) ht

/-- Settles O21: each clause is the law of one step of UNPACK, from the symbols' bits to the bytes. -/
theorem unpackReslices : Obligations.UnpackReslices := by
  intro w s _ _
  refine ⟨unpack_length w s, fun j t hj ht => ?_, fun i t => symbolBit_symbol⟩
  exact getLsbD_unpack (by simpa using hj) ht

/-! ## The final group -/

/-- Where a byte is the last and `r` of its bits are left, the `w` positions from there on are those `r` bits and then
zeros (R92). -/
theorem streamBit_last_byte {w r t : Nat} {b : List Byte} {x : Byte} (hr : r ≤ 8) (hrw : r ≤ w) (ht : t < w) :
    streamBit (b ++ [x]) (8 * (b.length + 1) - r + t) = (x.toNat % 2 ^ r * 2 ^ (w - r)).testBit (w - 1 - t) := by
  rw [Nat.testBit_mul_two_pow, Nat.testBit_mod_two_pow]
  by_cases h : t < r
  · have hbit : streamBit (b ++ [x]) (8 * b.length + (8 - r + t)) = x.getLsbD (7 - (8 - r + t)) := by
      rw [streamBit_byte (by simp) (by omega)]
      simp
    rw [show 8 * (b.length + 1) - r + t = 8 * b.length + (8 - r + t) by omega, hbit, BitVec.getLsbD,
      decide_eq_true (show w - r ≤ w - 1 - t by omega), decide_eq_true (show w - 1 - t - (w - r) < r by omega)]
    simp only [Bool.true_and]
    congr 1
    omega
  · rw [streamBit_past_end (by simp; omega), decide_eq_false (show ¬ w - r ≤ w - 1 - t by omega), Bool.false_and]

/-- Settles O20: with `r` bits left the last group starts `r` positions before the stream's end; with none left the
count of the groups divides exactly. -/
theorem finalGroupIsZeroFilled : Obligations.FinalGroupIsZeroFilled := by
  intro w b x hw
  refine ⟨fun hr => ?_, fun hr => ?_⟩
  · generalize hrdef : 8 * (b.length + 1) % w = r at hr ⊢
    have hrw : r < w := by rw [← hrdef]; exact Nat.mod_lt _ (by omega)
    have hq : symCount w (b ++ [x]).length - 1 < symCount w (b ++ [x]).length ∧
        (symCount w (b ++ [x]).length - 1) * w = 8 * (b.length + 1) - r := by
      rw [List.length_append, List.length_singleton, symCount]
      obtain rfl | rfl := hw <;> omega
    rw [List.getLast?_eq_getElem?, pack_length, pack_getElem? hq.1, hq.2]
    have hlt : x.toNat % 2 ^ r * 2 ^ (w - r) < 2 ^ w := by
      calc x.toNat % 2 ^ r * 2 ^ (w - r) < 2 ^ r * 2 ^ (w - r) :=
            Nat.mul_lt_mul_of_pos_right (Nat.mod_lt _ (by positivity)) (by positivity)
        _ = 2 ^ w := by rw [← pow_add, Nat.add_sub_cancel' hrw.le]
    exact congrArg some (bitsValue_eq hlt fun t => streamBit_last_byte (by omega) hrw.le)
  · rw [pack_length, List.length_append, List.length_singleton, symCount]
    obtain rfl | rfl := hw <;> omega

/-! ## The counts of the padding controller -/

theorem padCount_b32_eq (n : Nat) : padCount .b32 n = 8 * ((n + 4) / 5) - (8 * n + 4) / 5 := rfl

theorem padCount_b64u_eq (n : Nat) : padCount .b64u n = 4 * ((n + 2) / 3) - (8 * n + 5) / 6 := rfl

/-- PADCOUNT of B32 is the table of R75 at `n mod 5`. -/
theorem padCount_b32 (n : Nat) : padCount .b32 n = [0, 6, 4, 3, 1].getD (n % 5) 0 := by
  rw [padCount_b32_eq]
  obtain h | h | h | h | h : n % 5 = 0 ∨ n % 5 = 1 ∨ n % 5 = 2 ∨ n % 5 = 3 ∨ n % 5 = 4 := by omega
  all_goals (simp only [h, List.getD_cons_zero, List.getD_cons_succ]; omega)

/-- PADCOUNT of B64U is the table of R75 at `n mod 3`. -/
theorem padCount_b64u (n : Nat) : padCount .b64u n = [0, 2, 1].getD (n % 3) 0 := by
  rw [padCount_b64u_eq]
  obtain h | h | h : n % 3 = 0 ∨ n % 3 = 1 ∨ n % 3 = 2 := by omega
  all_goals (simp only [h, List.getD_cons_zero, List.getD_cons_succ]; omega)

/-- The symbols and the padding fill the padded text, because the symbols never outnumber its slots (R109). -/
theorem symCount_add_padCount (codec : Codec) (n : Nat) :
    symCount (width codec) n + padCount codec n = paddedLen codec n :=
  Nat.add_sub_cancel' (symCount_le_paddedLen codec n)

/-- The padding never reaches a whole block (R109). -/
theorem padCount_lt (codec : Codec) (n : Nat) : padCount codec n < blockSymbols codec := by
  cases codec with
  | b32 => rw [padCount_b32_eq, blockSymbols]; omega
  | b64u => rw [padCount_b64u_eq, blockSymbols]; omega

/-- Settles O32: the lengths by definition, PADCOUNT by its table, its sum with the symbols and its bound. -/
theorem paddingCounts : Obligations.PaddingCounts := fun n =>
  ⟨rfl, rfl, rfl, rfl, padCount_b32 n, padCount_b64u n, symCount_add_padCount .b32 n, symCount_add_padCount .b64u n,
    padCount_lt .b32 n, padCount_lt .b64u n⟩

end Sys2Proof.Machine
end

section
/-! PROOFS. The padding stripper, the validator, and what they make of trailing padding (40_datapath.md R111 to R113;
42_decode_general.md R156 (b)). -/

namespace Sys2Proof.Machine

/-! ## TRIM -/

@[simp] theorem trim_nil : trim [] = 0 := rfl

theorem trim_concat (t : List Byte) (c : Byte) : trim (t ++ [c]) = if c = pad then trim t else t.length + 1 := by
  simp only [trim, List.reverse_append, List.reverse_singleton, List.singleton_append, List.dropWhile_cons, beq_iff_eq]
  split <;> simp

/-- Trailing padding does not count (R112). -/
@[simp] theorem trim_append_padding (t : List Byte) (m : Nat) : trim (t ++ List.replicate m pad) = trim t := by
  induction m with
  | zero => simp
  | succ m ih => rw [List.replicate_succ', ← List.append_assoc, trim_concat, if_pos rfl, ih]

/-- Every character TRIM removes is the padding character. -/
theorem getElem?_of_trim_le {t : List Byte} {i : Nat} (hi : i < t.length) (h : trim t ≤ i) : t[i]? = some pad := by
  induction t using List.reverseRecOn with
  | nil => simp at hi
  | append_singleton t c ih =>
    rw [trim_concat] at h
    rw [List.length_append, List.length_singleton] at hi
    split at h
    · next hc =>
      obtain hlt | rfl := Nat.lt_succ_iff_lt_or_eq.1 hi
      · rw [List.getElem?_append_left hlt, ih hlt h]
      · simp [hc]
    · omega

/-- The last character TRIM keeps is not the padding character. -/
theorem getElem?_trim_sub_one {t : List Byte} (h : trim t ≠ 0) : t[trim t - 1]? ≠ some pad := by
  induction t using List.reverseRecOn with
  | nil => exact absurd rfl h
  | append_singleton t c ih =>
    rw [trim_concat] at h ⊢
    split
    · next hc =>
      rw [if_pos hc] at h
      have := trim_le t
      rw [List.getElem?_append_left (by omega)]
      exact ih h
    · next hc => simpa using hc

/-- Settles O33: what TRIM keeps ends in no padding, and a larger count would end in a character it removes. -/
theorem trimIsTheLargestCount : Obligations.TrimIsTheLargestCount := by
  refine fun t => ⟨trim_le t, or_iff_not_imp_left.2 getElem?_trim_sub_one, fun k hk hlast => ?_⟩
  by_contra hlt
  obtain rfl | hne := hlast
  · omega
  · exact hne (getElem?_of_trim_le (by omega) (by omega))

/-! ## VALIDATE -/

/-- The scan fails exactly on a character without a value. -/
theorem validateAll_eq_none {codec : Codec} {cs : List Byte} :
    validateAll codec cs = none ↔ ∃ c ∈ cs, symbolValue codec c = none := by
  induction cs with
  | nil => simp
  | cons c cs ih =>
    rw [List.exists_mem_cons_iff, ← ih, validateAll]
    cases hc : symbolValue codec c with
    | none => simp
    | some v => cases validateAll codec cs <;> simp

/-- A successful scan gives each character's value. -/
theorem validateAll_forall₂ {codec : Codec} {cs : List Byte} {s : List Nat} (h : validateAll codec cs = some s) :
    List.Forall₂ (fun c v => symbolValue codec c = some v) cs s := by
  induction cs generalizing s with
  | nil =>
    obtain rfl := Option.some.inj h
    exact .nil
  | cons c cs ih =>
    obtain ⟨v, vs, hv, hvs, rfl⟩ := validateAll_cons.1 h
    exact .cons hv (ih hvs)

/-- VALIDATE fails exactly when one of the first `k` characters has no value (R113). -/
theorem validate_eq_none {codec : Codec} {t : List Byte} {k : Nat} (hk : k ≤ t.length) :
    validate codec t k = none ↔ ∃ i, i < k ∧ symbolValue codec (t.getD i 0#8) = none := by
  rw [validate, validateAll_eq_none]
  constructor
  · rintro ⟨c, hc, hv⟩
    obtain ⟨i, hi, rfl⟩ := List.mem_take_iff_getElem.1 hc
    exact ⟨i, by omega, by rwa [List.getD_eq_getElem _ _ (by omega)]⟩
  · rintro ⟨i, hi, hv⟩
    rw [List.getD_eq_getElem _ _ (by omega)] at hv
    exact ⟨_, List.mem_take_iff_getElem.2 ⟨i, by omega, rfl⟩, hv⟩

/-- Where VALIDATE succeeds, its `i`-th value is that of character `i` (R113). -/
theorem symbolValue_of_validate {codec : Codec} {t : List Byte} {k i : Nat} {s : List Nat} (hk : k ≤ t.length)
    (h : validate codec t k = some s) (hi : i < k) : symbolValue codec (t.getD i 0#8) = some (s.getD i 0) := by
  have hs := validate_length hk h
  have hget := (List.forall₂_iff_get.1 (validateAll_forall₂ h)).2 i (by simp; omega) (by omega)
  rw [List.getD_eq_getElem _ _ (by omega), List.getD_eq_getElem _ _ (by omega)]
  simpa using hget

/-- Settles O34: the scan's failure and its values, read character by character. -/
theorem validatorScans : Obligations.ValidatorScans := fun _ _ _ hk =>
  ⟨validate_eq_none hk, fun _ h =>
    ⟨validate_length hk h, fun _ hi => symbolValue_eq_some_iff.1 (symbolValue_of_validate hk h hi)⟩⟩

/-! ## Padding tolerance -/

/-- VALIDATE looks at no character past its count. -/
theorem validate_append (codec : Codec) {t : List Byte} {k : Nat} (hk : k ≤ t.length) (rest : List Byte) :
    validate codec (t ++ rest) k = validate codec t k := by
  rw [validate, List.take_append_of_le_length hk, validate]

/-- The capacity check looks at the parameters and OUT_CAP alone. -/
theorem State.capacity_congr {s u : State} (hcfg : u.cfg = s.cfg) (hcap : u.outCap = s.outCap)
    (hw : u.written.outCap = s.written.outCap) (check : Bool) (need : Nat) :
    u.capacity check need = s.capacity check need := by
  simp only [State.capacity, State.readOutCap, hcfg, hcap, hw]

/-- What a host reads of the outcome is the same after commands that end alike, whatever IVAL holds. -/
theorem EndsAlike.same_result {i : Instr} {s u s' : State} {o : Host.Outcome State Fault Refusal} (hi : i ≠ .decf8)
    (h : EndsAlike s u i (.next s') o) :
    ∃ u', o = .next u' ∧ u'.status = s'.status ∧ u'.outLen = s'.outLen ∧ u'.result = s'.result := by
  cases h with
  | finish hr => exact ⟨_, rfl, rfl, rfl, by rw [s.finish_result hr, u.finish_result hr]⟩
  | raise k => exact ⟨_, rfl, rfl, rfl, rfl⟩
  | finishIval v => exact absurd rfl hi
  | raiseIval k => exact absurd rfl hi

/-- A general decode comes out alike on two texts of one effective count that the validator answers alike, where the
capacity check answers alike too. -/
theorem decodeGeneral_endsAlike_of_texts {codec : Codec} {check : Bool} {s u : State} {t t' : List Byte} (i : Instr)
    (ht : s.presents t) (ht' : u.presents t') (htrim : trim t' = trim t)
    (hval : validate codec t' (trim t) = validate codec t (trim t))
    (hcap : ∀ need, u.capacity check need = s.capacity check need) :
    EndsAlike s u i (decodeGeneral codec check s) (decodeGeneral codec check u) := by
  have hdec : decodeText codec t' (trim t) = decodeText codec t (trim t) := by rw [decodeText, hval, decodeText]
  simp only [decodeGeneral, State.readInput_eq_ok.2 ht, State.readInput_eq_ok.2 ht', htrim, hcap, hdec]
  split
  · exact .refused _
  · exact .raise _
  · split
    · exact .raise _
    · next hb => exact .finish (decodeText_length (trim_le t) hb)

/-- Settles O57: further padding changes neither the effective count nor the characters below it. -/
theorem paddingTolerance : Obligations.PaddingTolerance := by
  intro s u s' t m i hi ht ht' hcfg hcap hw h
  have alike : ∀ codec check, EndsAlike s u i (decodeGeneral codec check s) (decodeGeneral codec check u) := fun _ _ =>
    decodeGeneral_endsAlike_of_texts i ht ht' (trim_append_padding t m) (validate_append _ (trim_le t) _)
      (State.capacity_congr hcfg hcap hw _)
  have halike : EndsAlike s u i (exec i s) (exec i u) := by
    obtain rfl | rfl | rfl | rfl := hi <;> exact alike _ _
  rw [h] at halike
  exact halike.same_result (by rintro rfl; simp at hi)

end Sys2Proof.Machine
end

section
/-! PROOFS. 60_exceptions.md R193: the exact cause of LengthMismatch, command by command. Only the fixed-width decodes
report it, and they compare IN_LEN before they read a character. -/

namespace Sys2Proof.Machine

theorem encodeGeneral_ne_lengthMismatch {codec : Codec} {check : Bool} {s t : State}
    (h : encodeGeneral codec check s = .next t) : t.status ≠ .raised .lengthMismatch := by
  obtain ⟨b, -, ⟨-, -, -, rfl⟩ | ⟨-, -, rfl⟩⟩ := encodeGeneral_cases h <;> simp

theorem decodeGeneral_ne_lengthMismatch {codec : Codec} {check : Bool} {s t : State}
    (h : decodeGeneral codec check s = .next t) : t.status ≠ .raised .lengthMismatch := by
  obtain ⟨b, -, ⟨-, -, -, rfl⟩ | ⟨-, -, ⟨-, rfl⟩ | ⟨v, -, rfl⟩⟩⟩ := decodeGeneral_cases h <;> simp

theorem execDecf16_lengthMismatch_iff {s t : State} (h : execDecf16 s = .next t) :
    t.status = .raised .lengthMismatch ↔ s.inLen ≠ 22 := by
  obtain ⟨-, -, ⟨hne, rfl⟩ | ⟨heq, x, -, ⟨-, rfl⟩ | ⟨v, -, rfl⟩⟩⟩ := execDecf16_cases h
  · simp [hne]
  · simp [heq]
  · simp [heq]

theorem execDecf8_lengthMismatch_iff {s t : State} (h : execDecf8 s = .next t) :
    t.status = .raised .lengthMismatch ↔ s.inLen ≠ 11 := by
  obtain ⟨-, -, ⟨hne, rfl⟩ | ⟨heq, x, -, ⟨-, rfl⟩ | ⟨v, -, rfl⟩⟩⟩ := execDecf8_cases h
  · simp [hne]
  · simp [heq]
  · simp [heq]

/-- No command but DECF16 and DECF8 reports LengthMismatch. -/
theorem exec_ne_lengthMismatch {i : Instr} {s t : State} (h16 : i ≠ .decf16) (h8 : i ≠ .decf8)
    (h : exec i s = .next t) : t.status ≠ .raised .lengthMismatch := by
  cases i with
  | enc32 | enc64 | enc32b | enc64b => exact encodeGeneral_ne_lengthMismatch h
  | dec32 | dec64 | dec32b | dec64b => exact decodeGeneral_ne_lengthMismatch h
  | rsv8 | rsv9 | rsv12 | rsv13 => obtain rfl := Host.Outcome.next.inj h; exact nofun
  | encf16 => obtain ⟨b, -, rfl⟩ := execEncf16_cases h; exact nofun
  | encf8 => obtain ⟨-, rfl⟩ := execEncf8_cases h; exact nofun
  | decf16 => exact absurd rfl h16
  | decf8 => exact absurd rfl h8

/-- Settles O49: each of the two fixed-width decodes by its own length, and every other command by never reporting it. -/
theorem lengthMismatchExactly : Obligations.LengthMismatchExactly := by
  intro i s t h
  by_cases h16 : i = .decf16
  · subst h16
    simpa using execDecf16_lengthMismatch_iff h
  by_cases h8 : i = .decf8
  · subst h8
    simpa using execDecf8_lengthMismatch_iff h
  · simpa [h16, h8] using exec_ne_lengthMismatch h16 h8 h

end Sys2Proof.Machine
end

section
/-! PROOFS. How a command ends (60_exceptions.md R196, R198), said once for all sixteen: it wrote a result that fits
OBUF, it raised a fault its row of R198 allows, or, for DECF8, it wrote IVAL as well. The frames and the fault table
follow. -/

namespace Sys2Proof.Machine

/-- Command `i` at `s` can end in this state. OBUF holds every result on a machine that meets R7. -/
inductive CommandEnd (s : State) : Instr → State → Prop
  | finish {i : Instr} {n : Nat} {r : List Byte} (hr : r.length = n) (hfit : 22 ≤ s.cfg.obufSize → n ≤ s.cfg.obufSize) :
      CommandEnd s i (s.finish n r)
  | raise {i : Instr} {k : FaultKind} (hk : mayRaise i k = true) : CommandEnd s i (s.raise k)
  | finishIval (v : Word64) : CommandEnd s .decf8 (s.finishIval v)
  | raiseIval {k : FaultKind} (hk : mayRaise .decf8 k = true) : CommandEnd s .decf8 (s.raiseIval k)

theorem encodeGeneral_commandEnd {i : Instr} {codec : Codec} {check : Bool} {s t : State}
    (hk : check = true → mayRaise i .bufferTooSmall = true) (h : encodeGeneral codec check s = .next t) :
    CommandEnd s i t := by
  obtain ⟨b, -, ⟨hc, -, -, rfl⟩ | ⟨hfit, -, rfl⟩⟩ := encodeGeneral_cases h
  · exact .raise (hk hc)
  · exact .finish (canonicalText_length codec b) fun _ => hfit

theorem decodeGeneral_commandEnd {i : Instr} {codec : Codec} {check : Bool} {s t : State}
    (hk : check = true → mayRaise i .bufferTooSmall = true) (hv : mayRaise i .invalidCharacter = true)
    (h : decodeGeneral codec check s = .next t) : CommandEnd s i t := by
  obtain ⟨b, -, ⟨hc, -, -, rfl⟩ | ⟨hfit, -, ⟨-, rfl⟩ | ⟨v, hval, rfl⟩⟩⟩ := decodeGeneral_cases h
  · exact .raise (hk hc)
  · exact .raise hv
  · exact .finish (by rw [unpack_length, validate_length (trim_le b) hval]) fun _ => hfit

/-- Every next state of a command is one of its ends. -/
theorem exec_commandEnd {i : Instr} {s t : State} (h : exec i s = .next t) : CommandEnd s i t := by
  cases i with
  | enc32 | enc64 => exact encodeGeneral_commandEnd (check := false) nofun h
  | enc32b | enc64b => exact encodeGeneral_commandEnd (fun _ => rfl) h
  | dec32 | dec64 => exact decodeGeneral_commandEnd (check := false) nofun rfl h
  | dec32b | dec64b => exact decodeGeneral_commandEnd (fun _ => rfl) rfl h
  | rsv8 | rsv9 | rsv12 | rsv13 => obtain rfl := Host.Outcome.next.inj h; exact .raise rfl
  | encf16 =>
    obtain ⟨b, hb, rfl⟩ := execEncf16_cases h
    exact .finish (by simp [Memory.readRange_length hb, symCount, fixed16]) id
  | encf8 =>
    obtain ⟨-, rfl⟩ := execEncf8_cases h
    exact .finish (by simp [symCount, fixed8]) fun hle => le_trans (by decide) hle
  | decf16 =>
    obtain ⟨-, -, ⟨-, rfl⟩ | ⟨-, x, hx, ⟨-, rfl⟩ | ⟨v, hv, rfl⟩⟩⟩ := execDecf16_cases h
    · exact .raise rfl
    · exact .raise rfl
    · have hlen : v.length = 22 := validate_length (Memory.readRange_length hx).ge hv
      exact .finish (by rw [unpack_length, hlen, decLen]) fun hle => le_trans (by decide) hle
  | decf8 =>
    obtain ⟨-, -, ⟨-, rfl⟩ | ⟨-, x, -, ⟨-, rfl⟩ | ⟨v, -, rfl⟩⟩⟩ := execDecf8_cases h
    · exact .raiseIval rfl
    · exact .raiseIval rfl
    · exact .finishIval _

theorem exec_phase {i : Instr} {s t : State} (h : exec i s = .next t) : t.phase = .done := by
  cases exec_commandEnd h <;> rfl

/-- Settles O45: both plain ends write STATUS, OUT_LEN, PHASE and OBUF alone. -/
theorem commandFrame : Obligations.CommandFrame := by
  intro i s t hi h
  cases exec_commandEnd h with
  | finish | raise => exact ⟨⟨rfl, rfl, rfl, rfl, rfl, rfl, rfl⟩, fun _ => rfl, rfl, rfl, rfl⟩
  | finishIval | raiseIval => exact absurd rfl hi

/-- Settles O46: every end of DECF8 writes IVAL and its mark beside what the other commands write. -/
theorem integerDecodeFrame : Obligations.IntegerDecodeFrame := by
  intro s t h
  obtain ⟨-, -, ⟨-, rfl⟩ | ⟨-, x, -, ⟨-, rfl⟩ | ⟨v, -, rfl⟩⟩⟩ := execDecf8_cases h <;>
    exact ⟨rfl, rfl, rfl, rfl, fun _ => rfl, rfl, rfl, rfl, rfl, rfl⟩

/-- Settles O47: the ends that raise carry the row of R198, and the others leave STATUS OK. -/
theorem faultsByCommand : Obligations.FaultsByCommand := by
  intro i s t k h hst
  cases exec_commandEnd h with
  | finish | finishIval => exact absurd hst nofun
  | raise hk | raiseIval hk => exact Status.raised.inj hst ▸ hk

/-- Settles O48: the two ends that raise, and the codes of R191 by definition. -/
theorem faultEntry : Obligations.FaultEntry := by
  refine ⟨fun i s t k h hst => ?_, rfl, rfl, rfl, rfl, rfl⟩
  cases exec_commandEnd h with
  | finish | finishIval => exact absurd hst nofun
  | raise => exact ⟨rfl, rfl, rfl, rfl, rfl, rfl, fun _ => rfl⟩
  | raiseIval => exact ⟨rfl, rfl, rfl, rfl, rfl, rfl, fun hi => absurd rfl hi⟩

end Sys2Proof.Machine
end

section
/-! PROOFS. The invariant of the machine, one lemma per operation on the state, and then one case per host action. -/

namespace Sys2Proof.Machine

/-! ## The operations -/

/-- On a machine that meets R7 the size of OBUF is a value of a length register. -/
theorem obufSize_of_wf {c : Config} (h : c.wf = true) : 22 ≤ c.obufSize ∧ c.obufSize < 2 ^ c.lenW := by
  simp only [Config.wf, Bool.and_eq_true, decide_eq_true_eq] at h
  obtain ⟨⟨-, hsize⟩, hmax⟩ := h
  exact ⟨hsize, by rw [Config.maxLen] at hmax; omega⟩

theorem State.Inv.obufSize_ge {s : State} (h : s.Inv) : 22 ≤ s.cfg.obufSize := (obufSize_of_wf h.cfgWf).1

/-- No element of OBUF past its end holds a value where the result fits. -/
theorem lt_of_read_obufWith {cfg : Config} {draw i : Nat} {r : List Byte} (hr : r.length ≤ cfg.obufSize)
    (h : Memory.read (obufWith cfg draw r) i ≠ none) : i < cfg.obufSize :=
  max_eq_right hr ▸ read_obufWith_ne_none.1 h

theorem State.Inv.endCommand {s : State} {st : Status} {n : Nat} {r : List Byte} (h : s.Inv) (hn : n ≤ s.cfg.obufSize)
    (hr : r.length ≤ s.cfg.obufSize) (hst : st ≠ .ok → n = 0) : (s.endCommand st n r).Inv :=
  { h with
    obufWf := wf_obufWith _ _ _
    obufIn := fun _ => lt_of_read_obufWith hr
    outLenIn := hn.trans_lt (obufSize_of_wf h.cfgWf).2
    atIdle := nofun
    atDone := fun _ => ⟨hn, fun _ hi => read_obufWith_ne_none.2 (lt_max_of_lt_right hi)⟩
    afterFault := fun _ => hst
    atBusy := nofun }

/-- A running command's operands are the same at two states that agree on them. -/
theorem State.Inv.atBusy_congr {s u : State} (h : s.Inv) (a : AgreeOnOperands s u) (hc : u.cmd = s.cmd)
    (hw : u.written.cmd = s.written.cmd) (hp : s.phase = .busy) :
    u.startOperands = .ok () ∧ ∀ r, runCommand u ≠ .refused r := by
  obtain ⟨ho, hr⟩ := h.atBusy hp
  exact ⟨(a.startOperands hc hw).trans ho, fun r hu => hr r ((runCommand_refused_congr a hc hw r).1 hu)⟩

theorem State.Inv.withScript {s : State} (h : s.Inv) (rest : List HostAction) : (s.withScript rest).Inv :=
  { h with atBusy := h.atBusy_congr (.withScript s rest) rfl rfl }

theorem State.Inv.record {s : State} (h : s.Inv) (r : HostRead) : (s.record r).Inv :=
  { h with atBusy := h.atBusy_congr (.record s r) rfl rfl }

section
variable {s : State} (h : s.Inv) (hb : s.phase ≠ .busy)
include h hb

theorem State.Inv.putCmd (c : CmdWord) : (s.putCmd c).Inv := { h with atBusy := fun hp => absurd hp hb }

theorem State.Inv.setIval (v : Word64) : (s.setIval v).Inv := { h with atBusy := fun hp => absurd hp hb }

theorem State.Inv.putInLen {n : Nat} (hn : n < 2 ^ s.cfg.lenW) : (s.putInLen n).Inv :=
  { h with inLenIn := hn, atBusy := fun hp => absurd hp hb }

theorem State.Inv.putOutCap {n : Nat} (hn : n < 2 ^ s.cfg.lenW) : (s.putOutCap n).Inv :=
  { h with outCapIn := hn, atBusy := fun hp => absurd hp hb }

theorem State.Inv.putIbuf {i : Nat} (b : Byte) (hi : i < s.cfg.ibufSize) : (s.putIbuf i b).Inv :=
  { h with
    ibufWf := Memory.wf_write i b h.ibufWf
    ibufIn := fun j hj => by
      rw [State.putIbuf_ibuf, Memory.read_write] at hj
      by_cases hji : j = i
      · exact hji ▸ hi
      · exact h.ibufIn j (by rwa [if_neg hji] at hj)
    atBusy := fun hp => absurd hp hb }

end

theorem State.Inv.begin {s u : State} (h : s.Inv) (ho : s.startOperands = .ok ()) (hu : runCommand s = .next u) :
    s.begin.Inv :=
  { h with
    obufWf := wf_obufWith _ _ _
    obufIn := fun _ => lt_of_read_obufWith (Nat.zero_le _)
    outLenIn := Nat.mod_lt _ (by positivity)
    atIdle := nofun
    atDone := nofun
    afterFault := nofun
    atBusy := fun _ => by
      refine ⟨((AgreeOnOperands.begin s).startOperands rfl rfl).trans ho, fun r hr => ?_⟩
      rw [runCommand_refused_congr (.begin s) rfl rfl, hu] at hr
      exact absurd hr nofun }

/-- A state in which nothing is written, with PHASE IDLE, meets the invariant. -/
theorem State.inv_of_cleared {s : State} (hcfg : s.cfg.wf = true) (hlen : s.inLen = 0) (hcap : s.outCap = 0)
    (hst : s.status = .ok) (hout : s.outLen = 0) (hp : s.phase = .idle) (hi : s.ibuf = []) (ho : s.obuf = []) :
    s.Inv where
  cfgWf := hcfg
  ibufWf := hi ▸ rfl
  obufWf := ho ▸ rfl
  ibufIn := fun i hr => absurd (hi ▸ Memory.read_nil i) hr
  obufIn := fun i hr => absurd (ho ▸ Memory.read_nil i) hr
  inLenIn := hlen ▸ by positivity
  outCapIn := hcap ▸ by positivity
  outLenIn := hout ▸ by positivity
  atIdle := fun _ => ⟨hst, hout, ho⟩
  atDone := fun hd => absurd (hp ▸ hd) nofun
  afterFault := fun _ _ => hout
  atBusy := fun hb => absurd (hp ▸ hb) nofun

theorem State.Inv.hostReset {s : State} (h : s.Inv) : s.hostReset.Inv :=
  State.inv_of_cleared h.cfgWf rfl rfl rfl rfl rfl rfl rfl

/-- Settles O5: the standard parameters meet R7, and nothing is written. -/
theorem invariantAtReset : Obligations.InvariantAtReset :=
  State.inv_of_cleared (by decide) rfl rfl rfl rfl rfl rfl rfl

/-! ## The steps -/

theorem exec_inv {i : Instr} {s t : State} (h : s.Inv) (he : exec i s = .next t) : t.Inv := by
  cases exec_commandEnd he with
  | finish hr hfit =>
    have hn := hfit h.obufSize_ge
    exact h.endCommand hn (hr ▸ hn) fun hne => absurd rfl hne
  | raise => exact h.endCommand (Nat.zero_le _) (Nat.zero_le _) fun _ => rfl
  | finishIval v =>
    have hd : (s.endCommand .ok 8 []).Inv :=
      h.endCommand (le_trans (by decide) h.obufSize_ge) (Nat.zero_le _) fun hne => absurd rfl hne
    exact hd.setIval nofun v
  | raiseIval =>
    exact State.Inv.setIval (h.endCommand (Nat.zero_le _) (Nat.zero_le _) fun _ => rfl) nofun _

theorem runCommand_inv {s t : State} (h : s.Inv) (hr : runCommand s = .next t) : t.Inv :=
  exec_inv h (runCommand_next hr).2

theorem hostAction_inv {a : HostAction} {s t : State} (h : s.Inv) (ha : hostAction a s = .next t) : t.Inv := by
  cases a with
  | writeCmd c => obtain ⟨hb, rfl⟩ := hostWrite_next ha; exact h.putCmd hb c
  | writeIval v => obtain ⟨hb, rfl⟩ := hostWrite_next ha; exact h.setIval hb v
  | writeInLen n => obtain ⟨hn, hb, rfl⟩ := hostWriteLen_next ha; exact h.putInLen hb hn
  | writeOutCap n => obtain ⟨hn, hb, rfl⟩ := hostWriteLen_next ha; exact h.putOutCap hb hn
  | writeIbuf i b => obtain ⟨hi, hb, rfl⟩ := hostWriteIbuf_next ha; exact h.putIbuf hb b hi
  | start => obtain ⟨-, ho, ⟨u, hu⟩, rfl⟩ := hostStart_next ha; exact h.begin ho hu
  | awaitDone =>
    obtain ⟨-, hr⟩ | ⟨-, rfl⟩ | ⟨-, rfl⟩ := hostAwait_next ha
    · exact runCommand_inv h hr
    · exact h
    · exact h.withScript _
  | read x => obtain ⟨-, r, -, rfl⟩ := hostRead_next ha; exact h.record r
  | reset => obtain rfl := Host.Outcome.next.inj ha; exact h.hostReset

/-- Settles O6: the block by itself, or one host action on the state whose script has lost it. -/
theorem everyStepKeepsInvariant : Obligations.EveryStepKeepsInvariant := by
  intro s t h hs
  obtain ⟨-, hidle⟩ | ⟨a, rest, -, ha⟩ := step_cases hs
  · obtain ⟨-, hr⟩ | ⟨-, rfl⟩ := idleStep_next hidle
    · exact runCommand_inv h hr
    · exact h
  · exact hostAction_inv (h.withScript rest) ha

/-! ## Termination -/

/-- A command that was started is neither refused nor stopped: it runs to DONE (R231). -/
theorem State.Inv.runCommand_done {s : State} (h : s.Inv) (hp : s.phase = .busy) :
    ∃ t, runCommand s = .next t ∧ t.phase = .done := by
  cases hr : runCommand s with
  | next t => exact ⟨t, rfl, exec_phase (runCommand_next hr).2⟩
  | fault f => exact absurd hr (runCommand_ne_fault s f)
  | refused r => exact absurd hr ((h.atBusy hp).2 r)

theorem idleStep_of_busy {s : State} (h : s.phase = .busy) : idleStep s = runCommand s := by
  unfold idleStep
  rw [h]

theorem hostAwait_of_busy {s : State} (h : s.phase = .busy) : s.hostAwait = runCommand s := by
  unfold State.hostAwait
  rw [h]

/-- Settles O11: both steps run the command CMD names. -/
theorem startedCommandEnds : Obligations.StartedCommandEnds := by
  rintro s h hp (hs | ⟨rest, hs⟩)
  · rw [step_nil hs, idleStep_of_busy hp]
    exact h.runCommand_done hp
  · have hstep : step s = runCommand (s.withScript rest) := (step_cons hs).trans (hostAwait_of_busy hp)
    rw [hstep]
    exact (h.withScript rest).runCommand_done hp

end Sys2Proof.Machine
end

section
/-! PROOFS. PACK and UNPACK are inverse to each other (40_datapath.md R104). Both are read through the bit streams: the
symbols PACK gives carry the stream of the bytes, the bytes UNPACK gives carry the stream of the symbols as far as it
fills bytes, and either kind of sequence is determined by its stream. -/

namespace Sys2Proof.Machine

/-! ## The streams of PACK and UNPACK -/

/-- The groups reach past the end of the bytes. -/
theorem le_symCount_mul {w : Nat} (hw : 0 < w) (n : Nat) : 8 * n ≤ symCount w n * w := by
  have hdiv := Nat.div_add_mod' (8 * n + w - 1) w
  have hmod := Nat.mod_lt (8 * n + w - 1) hw
  rw [symCount]
  omega

/-- The symbols of PACK carry the stream of the bytes, zeros past its end included (R91). -/
theorem symbolBit_pack {w : Nat} (hw : 0 < w) (b : List Byte) (p : Nat) : symbolBit w (pack w b) p = streamBit b p := by
  have hdiv := Nat.div_add_mod' p w
  by_cases hq : p / w < symCount w b.length
  · have hbit := testBit_bitsValue (fun t => streamBit b (p / w * w + t)) (Nat.mod_lt p hw)
    rw [symbolBit, pack_getElem? hq]
    exact hbit.trans (congrArg (streamBit b) hdiv)
  · have hle : symCount w b.length * w ≤ p / w * w := Nat.mul_le_mul_right w (by omega)
    have hend := le_symCount_mul hw b.length
    rw [symbolBit, List.getElem?_eq_none (by simpa using hq), streamBit_past_end (by omega)]

/-- The bytes of UNPACK carry the stream of the symbols, as far as it fills bytes (R98). -/
theorem streamBit_unpack {w p : Nat} {s : List Nat} (h : p < 8 * decLen w s.length) :
    streamBit (unpack w s) p = symbolBit w s p := by
  have hbyte := streamBit_byte (b := unpack w s) (i := p / 8) (j := p % 8) (by rw [unpack_length]; omega) (by omega)
  rwa [getLsbD_unpack (by omega) (by omega), Nat.div_add_mod] at hbyte

/-- Bytes are determined by their stream. -/
theorem bytes_eq_of_streamBit {b c : List Byte} (hlen : b.length = c.length)
    (h : ∀ p, p < 8 * b.length → streamBit b p = streamBit c p) : b = c := by
  refine List.ext_getElem hlen fun i hi hi' => BitVec.eq_of_getLsbD_eq fun k hk => ?_
  have hbit := h (8 * i + (7 - k)) (by omega)
  rwa [streamBit_byte hi (by omega), streamBit_byte hi' (by omega), show 7 - (7 - k) = k by omega,
    List.getD_eq_getElem _ _ hi, List.getD_eq_getElem _ _ hi'] at hbit

/-- Symbol values are determined by their stream. -/
theorem symbols_eq_of_symbolBit {w : Nat} {s u : List Nat} (hlen : s.length = u.length) (hs : ∀ v ∈ s, v < 2 ^ w)
    (hu : ∀ v ∈ u, v < 2 ^ w) (h : ∀ p, p < s.length * w → symbolBit w s p = symbolBit w u p) : s = u := by
  refine List.ext_getElem hlen fun i hi hi' => Nat.eq_of_testBit_eq fun k => ?_
  by_cases hk : k < w
  · have hp : w * i + (w - 1 - k) < s.length * w := by
      calc w * i + (w - 1 - k) < w * (i + 1) := by rw [Nat.mul_succ]; omega
        _ ≤ s.length * w := by rw [Nat.mul_comm]; exact Nat.mul_le_mul_right w hi
    have hbit := h _ hp
    rwa [symbolBit_symbol hi (by omega), symbolBit_symbol hi' (by omega), show w - 1 - (w - 1 - k) = k by omega,
      List.getD_eq_getElem _ _ hi, List.getD_eq_getElem _ _ hi'] at hbit
  · have hpow : 2 ^ w ≤ 2 ^ k := Nat.pow_le_pow_right (by omega) (by omega)
    rw [Nat.testBit_lt_two_pow ((hs _ (List.getElem_mem hi)).trans_le hpow),
      Nat.testBit_lt_two_pow ((hu _ (List.getElem_mem hi')).trans_le hpow)]

/-! ## The round trips -/

/-- As many symbols as `n` bytes pack to unpack to `n` bytes. -/
theorem decLen_symCount {w : Nat} (hw : w = 5 ∨ w = 6) (n : Nat) : decLen w (symCount w n) = n := by
  rw [decLen, symCount]
  obtain rfl | rfl := hw <;> omega

theorem unpack_pack {w : Nat} (hw : w = 5 ∨ w = 6) (b : List Byte) : unpack w (pack w b) = b := by
  have hlen : (unpack w (pack w b)).length = b.length := by rw [unpack_length, pack_length, decLen_symCount hw]
  refine bytes_eq_of_streamBit hlen fun p hp => ?_
  rw [streamBit_unpack (by simpa using hp), symbolBit_pack (by omega)]

/-- Settles O22: the bytes unpacked carry the stream of the symbols, which is that of the bytes packed. -/
theorem unpackOfPack : Obligations.UnpackOfPack := fun _ b hw => unpack_pack hw b

/-- Settles O23: what was packed has the canonical count and zeros past the bytes; and symbols that have both carry the
stream of their bytes. -/
theorem packOfUnpack : Obligations.PackOfUnpack := by
  intro w s hw hs
  have hbit : ∀ p, symbolBit w (pack w (unpack w s)) p = streamBit (unpack w s) p := symbolBit_pack (by omega) _
  constructor
  · intro h
    refine ⟨by simpa using (congrArg List.length h).symm, fun p hp _ => ?_⟩
    have hpast := (hbit p).trans (streamBit_past_end (by simpa using hp))
    rwa [h] at hpast
  · rintro ⟨hlen, hzero⟩
    have hcount : (pack w (unpack w s)).length = s.length := by rw [pack_length, unpack_length, ← hlen]
    refine symbols_eq_of_symbolBit hcount (fun _ => pack_lt) hs fun p hp => ?_
    rw [hbit]
    by_cases hp' : p < 8 * decLen w s.length
    · exact streamBit_unpack hp'
    · rw [streamBit_past_end (by rw [unpack_length]; omega), hzero p (by omega) (hcount ▸ hp)]

/-- Settles O24: the bytes are determined by their stream, which ends at `8·DECLEN`. -/
theorem unpackIgnoresTrailingBits : Obligations.UnpackIgnoresTrailingBits := by
  intro w s u _ hlen h
  refine bytes_eq_of_streamBit (by simp [hlen]) fun p hp => ?_
  rw [unpack_length] at hp
  rw [streamBit_unpack hp, streamBit_unpack (hlen ▸ hp), h p hp]

end Sys2Proof.Machine
end

section
/-! PROOFS. The step forms compute the closed ones (40_datapath.md R93, R101). ACC and NB hold the bits that were read
and not yet emitted: the stream still to be cut is those bits, then the input's. -/

namespace Sys2Proof.Machine

/-! ## Streams with leading bits -/

/-- The stream that starts with the low `nb` bits of `acc`, most significant first, and goes on as `f`. -/
def leadBit (acc nb : Nat) (f : Nat → Bool) (p : Nat) : Bool := if p < nb then acc.testBit (nb - 1 - p) else f (p - nb)

@[simp] theorem leadBit_zero (acc : Nat) (f : Nat → Bool) : leadBit acc 0 f = f := by
  funext p
  simp [leadBit]

theorem streamBit_cons (b : Byte) (bs : List Byte) : streamBit (b :: bs) = leadBit b.toNat 8 (streamBit bs) := by
  funext p
  unfold leadBit
  split
  · next hp => simpa [BitVec.testBit_toNat] using streamBit_byte (b := b :: bs) (i := 0) (j := p) (by simp) (by omega)
  · next hp => simp [streamBit, show p / 8 = (p - 8) / 8 + 1 by omega, show p % 8 = (p - 8) % 8 by omega]

theorem symbolBit_cons {w : Nat} (hw : 0 < w) (v : Nat) (s : List Nat) :
    symbolBit w (v :: s) = leadBit v w (symbolBit w s) := by
  funext p
  unfold leadBit
  split
  · next hp => simpa using symbolBit_symbol (s := v :: s) (i := 0) (t := p) (by simp) hp
  · next hp =>
    obtain ⟨k, rfl⟩ := Nat.exists_eq_add_of_le' (Nat.le_of_not_lt hp)
    simp [symbolBit, Nat.add_div_right _ hw]

/-- A chunk read into ACC joins the leading bits (R93, R101). -/
theorem leadBit_push {x k : Nat} (hx : x < 2 ^ k) (acc nb : Nat) (f : Nat → Bool) :
    leadBit ((acc <<< k) ||| x) (nb + k) f = leadBit acc nb (leadBit x k f) := by
  funext p
  simp only [leadBit, Nat.testBit_or, Nat.testBit_shiftLeft]
  by_cases hacc : p < nb
  · have hzero : x.testBit (nb + k - 1 - p) = false :=
      Nat.testBit_lt_two_pow (hx.trans_le (Nat.pow_le_pow_right (by omega) (by omega)))
    rw [if_pos (by omega), if_pos hacc, hzero, decide_eq_true (by omega), Bool.true_and, Bool.or_false]
    congr 1
    omega
  · rw [if_neg hacc]
    by_cases hchunk : p < nb + k
    · rw [if_pos hchunk, if_pos (by omega), decide_eq_false (by omega), Bool.false_and, Bool.false_or]
      congr 1
      omega
    · rw [if_neg hchunk, if_neg (by omega)]
      congr 1
      omega

/-- The first `w` leading bits, as the step forms take them from ACC. -/
theorem bitsValue_leadBit {w nb : Nat} (h : w ≤ nb) (acc : Nat) (f : Nat → Bool) :
    bitsValue w (leadBit acc nb f) = (acc >>> (nb - w)) &&& (2 ^ w - 1) := by
  rw [Nat.and_two_pow_sub_one_eq_mod]
  refine bitsValue_eq (Nat.mod_lt _ (by positivity)) fun t ht => ?_
  rw [leadBit, if_pos (by omega), Nat.testBit_mod_two_pow, decide_eq_true (by omega), Bool.true_and,
    Nat.testBit_shiftRight]
  congr 1
  omega

/-- What the step forms leave in ACC is the leading bits without the first `w`. -/
theorem leadBit_drop {w nb : Nat} (h : w ≤ nb) (acc : Nat) (f : Nat → Bool) :
    (fun p => leadBit acc nb f (w + p)) = leadBit (acc &&& (2 ^ (nb - w) - 1)) (nb - w) f := by
  funext p
  rw [Nat.and_two_pow_sub_one_eq_mod]
  unfold leadBit
  by_cases hp : w + p < nb
  · rw [if_pos hp, if_pos (by omega), Nat.testBit_mod_two_pow, decide_eq_true (by omega), Bool.true_and]
    congr 1
    omega
  · rw [if_neg hp, if_neg (by omega)]
    congr 1
    omega

/-! ## Cutting a stream -/

/-- The first `n` groups of `w` bits of a stream. -/
def cutBits (w n : Nat) (bit : Nat → Bool) : List Nat :=
  (List.range n).map fun q => bitsValue w fun t => bit (q * w + t)

@[simp] theorem cutBits_zero (w : Nat) (bit : Nat → Bool) : cutBits w 0 bit = [] := rfl

theorem cutBits_succ (w n : Nat) (bit : Nat → Bool) :
    cutBits w (n + 1) bit = bitsValue w bit :: cutBits w n fun p => bit (w + p) := by
  simp only [cutBits, List.range_succ_eq_map, List.map_cons, List.map_map, Nat.zero_mul, Nat.zero_add]
  congr 1
  refine List.map_congr_left fun q _ => ?_
  simp only [Function.comp, Nat.succ_mul]
  congr 1
  funext t
  congr 1
  omega

theorem pack_eq_cutBits (w : Nat) (b : List Byte) : pack w b = cutBits w (symCount w b.length) (streamBit b) := rfl

theorem unpack_eq_cutBits (w : Nat) (s : List Nat) :
    unpack w s = (cutBits 8 (decLen w s.length) (symbolBit w s)).map (BitVec.ofNat 8) := by
  simp only [unpack, cutBits, List.map_map, Nat.mul_comm 8]
  rfl

/-! ## The packer -/

/-- The inner loop of R93 emits the groups that NB bits fill, and leaves the rest of the stream in ACC. -/
theorem packDrain_spec {w fuel acc nb acc' nb' : Nat} {gs : List Nat} (hw : 0 < w) (hfuel : nb ≤ fuel)
    (h : packDrain w fuel acc nb = (gs, acc', nb')) :
    nb' < w ∧ nb = gs.length * w + nb' ∧
      ∀ k f, gs ++ cutBits w k (leadBit acc' nb' f) = cutBits w (gs.length + k) (leadBit acc nb f) := by
  induction fuel generalizing acc nb gs with
  | zero =>
    obtain ⟨rfl, rfl, rfl⟩ : [] = gs ∧ acc = acc' ∧ nb = nb' := by simpa [packDrain] using h
    simp [Nat.le_zero.1 hfuel, hw]
  | succ fuel ih =>
    by_cases hle : w ≤ nb
    · obtain ⟨⟨gs', _, _⟩, hr⟩ : ∃ r, packDrain w fuel (acc &&& (2 ^ (nb - w) - 1)) (nb - w) = r := ⟨_, rfl⟩
      simp only [packDrain, if_pos hle, hr, Prod.mk.injEq] at h
      obtain ⟨rfl, rfl, rfl⟩ := h
      obtain ⟨hlt, hcount, hcut⟩ := ih (by omega) hr
      refine ⟨hlt, by rw [List.length_cons, Nat.succ_mul]; omega, fun k f => ?_⟩
      rw [List.length_cons, Nat.add_right_comm, cutBits_succ, bitsValue_leadBit hle, leadBit_drop hle, ← hcut,
        List.cons_append]
    · obtain ⟨rfl, rfl, rfl⟩ : [] = gs ∧ acc = acc' ∧ nb = nb' := by simpa [packDrain, hle] using h
      simp [Nat.lt_of_not_le hle]

/-- The outer loop of R93 cuts ACC's bits and the input's, the last group filled with zeros (R92). -/
theorem packLoop_eq_cutBits {w : Nat} (bs : List Byte) (acc nb : Nat) (hnb : nb < w) :
    packLoop w bs acc nb = cutBits w ((nb + 8 * bs.length + w - 1) / w) (leadBit acc nb (streamBit bs)) := by
  induction bs generalizing acc nb with
  | nil =>
    rw [packLoop, List.length_nil]
    split
    · next hpos =>
      have hone : (nb + 8 * 0 + w - 1) / w = 0 + 1 := by
        rw [show nb + 8 * 0 + w - 1 = nb - 1 + w by omega, Nat.add_div_right _ (by omega), Nat.div_eq_of_lt (by omega)]
      rw [hone, cutBits_succ, cutBits_zero, Nat.and_two_pow_sub_one_eq_mod]
      congr 1
      refine (bitsValue_eq (Nat.mod_lt _ (by positivity)) fun t ht => ?_).symm
      rw [Nat.testBit_mod_two_pow, Nat.testBit_shiftLeft, decide_eq_true (by omega), Bool.true_and, leadBit]
      split
      · rw [decide_eq_true (by omega), Bool.true_and]
        congr 1
        omega
      · rw [decide_eq_false (by omega), Bool.false_and, streamBit_past_end (by simp)]
    · next hzero =>
      rw [show (nb + 8 * 0 + w - 1) / w = 0 from Nat.div_eq_of_lt (by omega), cutBits_zero]
  | cons b bs ih =>
    obtain ⟨⟨gs, acc', nb'⟩, hr⟩ : ∃ r, packDrain w (nb + 8) ((acc <<< 8) ||| b.toNat) (nb + 8) = r := ⟨_, rfl⟩
    obtain ⟨hlt, hcount, hcut⟩ := packDrain_spec (by omega) le_rfl hr
    rw [packLoop, hr, ih _ _ hlt, hcut, streamBit_cons, ← leadBit_push b.isLt]
    congr 1
    rw [← Nat.mul_add_div (by omega : 0 < w), Nat.mul_comm w, List.length_cons]
    congr 1
    omega

/-- Settles O25: before the first byte ACC holds no bit. -/
theorem packStepFormIsPack : Obligations.PackStepFormIsPack := by
  intro w b hw
  rw [packSteps, packLoop_eq_cutBits b 0 0 (by omega), leadBit_zero, pack_eq_cutBits, symCount, Nat.zero_add]

/-! ## The unpacker -/

/-- The loop of R101 cuts ACC's bits and the input's into the bytes they fill. -/
theorem unpackLoop_eq_cutBits {w : Nat} (hw : 0 < w ∧ w ≤ 8) (ss : List Nat) (hs : ∀ v ∈ ss, v < 2 ^ w) (acc nb : Nat)
    (hnb : nb < 8) :
    unpackLoop w ss acc nb =
      (cutBits 8 ((nb + ss.length * w) / 8) (leadBit acc nb (symbolBit w ss))).map (BitVec.ofNat 8) := by
  induction ss generalizing acc nb with
  | nil => rw [unpackLoop, List.length_nil, show (nb + 0 * w) / 8 = 0 by omega]; rfl
  | cons v ss ih =>
    obtain ⟨hv, hss⟩ := List.forall_mem_cons.1 hs
    have hlen : nb + (v :: ss).length * w = nb + w + ss.length * w := by rw [List.length_cons, Nat.succ_mul]; omega
    rw [hlen, symbolBit_cons hw.1, ← leadBit_push hv, unpackLoop]
    split
    · next hle =>
      rw [ih hss _ _ (by omega), show (nb + w + ss.length * w) / 8 = (nb + w - 8 + ss.length * w) / 8 + 1 by omega,
        cutBits_succ, bitsValue_leadBit hle, leadBit_drop hle, List.map_cons]
      rfl
    · next hlt => exact ih hss _ _ (by omega)

/-- Settles O26: before the first symbol ACC holds no bit. -/
theorem unpackStepFormIsUnpack : Obligations.UnpackStepFormIsUnpack := by
  intro w s hw hs
  rw [unpackSteps, unpackLoop_eq_cutBits (by omega) s hs 0 0 (by omega), leadBit_zero, unpack_eq_cutBits, decLen,
    Nat.zero_add]

end Sys2Proof.Machine
end

section
/-! PROOFS. The closed forms of one full block (40_datapath.md R94, R95, R102, R103): a group is what has its bits, so
each form is read bit by bit. -/

namespace Sys2Proof.Machine

/-- A group of at most eight bits is the number of the byte that holds them at its low end. -/
theorem bitsValue_eq_toNat {w : Nat} {bit : Nat → Bool} {x : Byte} (hw : w ≤ 8)
    (h : ∀ k, k < 8 → x.getLsbD k = (decide (k < w) && bit (w - 1 - k))) : bitsValue w bit = x.toNat := by
  have hx : x.toNat < 2 ^ w := by
    refine Nat.lt_pow_two_of_testBit _ fun k hk => ?_
    rw [BitVec.testBit_toNat]
    by_cases hk8 : k < 8
    · rw [h k hk8, decide_eq_false (by omega), Bool.false_and]
    · exact BitVec.getLsbD_of_ge x k (by omega)
  refine bitsValue_eq hx fun t ht => ?_
  rw [BitVec.testBit_toNat, h _ (by omega), decide_eq_true (by omega), Bool.true_and]
  congr 1
  omega

/-- Settles O27: the four groups of three bytes and the eight groups of five, each bit by bit. -/
theorem packClosedForms : Obligations.PackClosedForms := by
  constructor
  · intro b0 b1 b2
    rw [pack_eq_cutBits, show symCount 6 [b0, b1, b2].length = 4 by simp [symCount]]
    simp only [cutBits_succ, cutBits_zero, List.cons.injEq, and_true]
    refine ⟨?_, ?_, ?_, ?_⟩ <;> refine bitsValue_eq_toNat (by decide) fun k hk => ?_ <;>
      interval_cases k <;> simp [streamBit]
  · intro b0 b1 b2 b3 b4
    rw [pack_eq_cutBits, show symCount 5 [b0, b1, b2, b3, b4].length = 8 by simp [symCount]]
    simp only [cutBits_succ, cutBits_zero, List.cons.injEq, and_true]
    refine ⟨?_, ?_, ?_, ?_, ?_, ?_, ?_, ?_⟩ <;> refine bitsValue_eq_toNat (by decide) fun k hk => ?_ <;>
      interval_cases k <;> simp [streamBit]

/-- The bytes of UNPACK, as numbers, are the groups of eight of the symbols' stream. -/
theorem map_toNat_unpack (w : Nat) (s : List Nat) :
    (unpack w s).map BitVec.toNat = cutBits 8 (decLen w s.length) (symbolBit w s) := by
  rw [unpack_eq_cutBits, List.map_map]
  refine (List.map_congr_left fun v hv => ?_).trans (List.map_id _)
  obtain ⟨q, -, rfl⟩ := List.mem_map.1 hv
  exact (BitVec.toNat_ofNat _ _).trans (Nat.mod_eq_of_lt (bitsValue_lt 8 _))

theorem testBit_of_lt {v w i : Nat} (hv : v < 2 ^ w) (hi : w ≤ i) : v.testBit i = false :=
  Nat.testBit_lt_two_pow (hv.trans_le (Nat.pow_le_pow_right (by omega) hi))

/-- One block of four symbols, `w = 6` (R102). -/
theorem unpack_block_b64u {s0 s1 s2 s3 : Nat} (h0 : s0 < 2 ^ 6) (h1 : s1 < 2 ^ 6) (h2 : s2 < 2 ^ 6) (h3 : s3 < 2 ^ 6) :
    (unpack 6 [s0, s1, s2, s3]).map BitVec.toNat =
      [(s0 <<< 2) ||| (s1 >>> 4), ((s1 &&& 0x0F) <<< 4) ||| (s2 >>> 2), ((s2 &&& 0x03) <<< 6) ||| s3] := by
  have le1 : s1 &&& 0x0F ≤ 0x0F := Nat.and_le_right
  have le2 : s2 &&& 0x03 ≤ 0x03 := Nat.and_le_right
  rw [map_toNat_unpack, show decLen 6 [s0, s1, s2, s3].length = 3 by simp [decLen]]
  simp only [cutBits_succ, cutBits_zero, List.cons.injEq, and_true]
  refine ⟨?_, ?_, ?_⟩ <;> refine bitsValue_eq (Nat.or_lt_two_pow (by omega) (by omega)) fun t ht => ?_ <;>
    interval_cases t <;>
    simp +decide [symbolBit, testBit_of_lt h1, testBit_of_lt h2, testBit_of_lt h3]

/-- One block of eight symbols, `w = 5` (R103). -/
theorem unpack_block_b32 {s0 s1 s2 s3 s4 s5 s6 s7 : Nat} (h0 : s0 < 2 ^ 5) (h1 : s1 < 2 ^ 5) (h2 : s2 < 2 ^ 5)
    (h3 : s3 < 2 ^ 5) (h4 : s4 < 2 ^ 5) (h5 : s5 < 2 ^ 5) (h6 : s6 < 2 ^ 5) (h7 : s7 < 2 ^ 5) :
    (unpack 5 [s0, s1, s2, s3, s4, s5, s6, s7]).map BitVec.toNat =
      [(s0 <<< 3) ||| (s1 >>> 2), ((s1 &&& 0x03) <<< 6) ||| (s2 <<< 1) ||| (s3 >>> 4),
        ((s3 &&& 0x0F) <<< 4) ||| (s4 >>> 1), ((s4 &&& 0x01) <<< 7) ||| (s5 <<< 2) ||| (s6 >>> 3),
        ((s6 &&& 0x07) <<< 5) ||| s7] := by
  have le1 : s1 &&& 0x03 ≤ 0x03 := Nat.and_le_right
  have le3 : s3 &&& 0x0F ≤ 0x0F := Nat.and_le_right
  have le4 : s4 &&& 0x01 ≤ 0x01 := Nat.and_le_right
  have le6 : s6 &&& 0x07 ≤ 0x07 := Nat.and_le_right
  rw [map_toNat_unpack, show decLen 5 [s0, s1, s2, s3, s4, s5, s6, s7].length = 5 by simp [decLen]]
  simp only [cutBits_succ, cutBits_zero, List.cons.injEq, and_true]
  refine ⟨?_, ?_, ?_, ?_, ?_⟩ <;> refine bitsValue_eq ?_ fun t ht => ?_
  case refine_1.refine_1 | refine_3.refine_1 | refine_5.refine_1 => exact Nat.or_lt_two_pow (by omega) (by omega)
  case refine_2.refine_1 | refine_4.refine_1 =>
    exact Nat.or_lt_two_pow (Nat.or_lt_two_pow (by omega) (by omega)) (by omega)
  all_goals
    interval_cases t <;>
    simp +decide [symbolBit, testBit_of_lt h1, testBit_of_lt h2, testBit_of_lt h3, testBit_of_lt h4, testBit_of_lt h5,
      testBit_of_lt h6, testBit_of_lt h7]

/-- Settles O28: the two blocks. -/
theorem unpackClosedForms : Obligations.UnpackClosedForms :=
  ⟨fun _ _ _ _ => unpack_block_b64u, fun _ _ _ _ _ _ _ _ => unpack_block_b32⟩

end Sys2Proof.Machine
end

section
/-! PROOFS. The byte order of the 8-byte integer (20_memory.md R46): LE64 and UNLE64 are the digits of a number to the
base 256 and the number of such digits. -/

namespace Sys2Proof.Machine

theorem leValue_lt (b : List Byte) : leValue b < 256 ^ b.length := by
  induction b with
  | nil => simp [leValue]
  | cons x b ih =>
    have hx := x.isLt
    rw [leValue, List.length_cons, pow_succ]
    omega

/-- Byte `j` is digit `j` of the value. -/
theorem leValue_div_mod {b : List Byte} {j : Nat} (hj : j < b.length) : leValue b / 256 ^ j % 256 = b[j].toNat := by
  induction b generalizing j with
  | nil => simp at hj
  | cons x b ih =>
    have hx := x.isLt
    cases j with
    | zero => simp only [leValue, pow_zero, List.getElem_cons_zero]; omega
    | succ j =>
      rw [List.length_cons] at hj
      rw [List.getElem_cons_succ, ← ih (by omega), pow_succ', ← Nat.div_div_eq_div_mul, leValue,
        show (x.toNat + 256 * leValue b) / 256 = leValue b by omega]

/-- Byte `j` of LE64 is digit `j` of the integer. -/
theorem toNat_le64_getElem (v : Word64) {j : Nat} (hj : j < (le64 v).length) :
    (le64 v)[j].toNat = v.toNat / 256 ^ j % 256 := by
  simp only [le64, List.getElem_map, List.getElem_range, BitVec.extractLsb'_toNat, Nat.shiftRight_eq_div_pow,
    Nat.pow_mul]

theorem le64_unle64 {b : List Byte} (hb : b.length = 8) : le64 (unle64 b) = b := by
  have hlt : leValue b < 2 ^ 64 := by simpa [hb] using leValue_lt b
  refine List.ext_getElem (by simp [hb]) fun j hj hj' => BitVec.eq_of_toNat_eq ?_
  rw [toNat_le64_getElem, unle64, BitVec.toNat_ofNat, Nat.mod_eq_of_lt hlt, leValue_div_mod hj']

theorem unle64_le64 (v : Word64) : unle64 (le64 v) = v := by
  have hv := v.isLt
  refine BitVec.eq_of_toNat_eq ?_
  simp only [unle64, le64, List.range_succ, List.range_zero, List.nil_append, List.cons_append, List.map_cons,
    List.map_nil, leValue, BitVec.extractLsb'_toNat, Nat.shiftRight_eq_div_pow, BitVec.toNat_ofNat]
  omega

/-- Settles O35: the eight bytes by definition, the two inverses by their digits. -/
theorem integerByteOrder : Obligations.IntegerByteOrder :=
  ⟨fun v => ⟨rfl, unle64_le64 v⟩, fun _ => le64_unle64⟩

end Sys2Proof.Machine
end

section
/-! PROOFS. The last symbol of a fixed-width text (43_fixed_width.md R171, R173): a full 16 bytes leave two bits for it,
a full 8 bytes four, and R92 fills the rest with zeros. -/

namespace Sys2Proof.Machine

/-- Where bytes leave `r` bits over, the last group is the low `r` bits of the last byte over zeros (R92). -/
theorem pack_last {b : List Byte} {n r : Nat} (hb : b.length = n + 1) (hr : 8 * (n + 1) % 6 = r) (hr0 : r ≠ 0) :
    ∃ x : Byte, (pack 6 b)[symCount 6 (n + 1) - 1]? = some (x.toNat % 2 ^ r * 2 ^ (6 - r)) := by
  have hne : b ≠ [] := List.ne_nil_of_length_eq_add_one hb
  obtain ⟨c, x, rfl⟩ : ∃ c x, b = c ++ [x] := ⟨_, _, (List.dropLast_append_getLast hne).symm⟩
  obtain rfl : c.length = n := by simpa using hb
  subst hr
  have hlast := (finalGroupIsZeroFilled 6 c x (.inr rfl)).1 hr0
  rw [List.getLast?_eq_getElem?, pack_length, List.length_append, List.length_singleton] at hlast
  exact ⟨x, hlast⟩

/-- Settles O60: the 22nd group is a multiple of 16 and the 11th a multiple of 4. -/
theorem lastFixedSymbol : Obligations.LastFixedSymbol := by
  constructor
  · intro b hb
    obtain ⟨x, hx⟩ := pack_last (r := 2) hb rfl (by decide)
    have hsym : ∀ d : Fin 4,
        some (mapSymbol .b64u (d.1 * 16)) ∈ [some 0x41#8, some 0x51#8, some 0x67#8, some 0x77#8] := by decide
    rw [fixedText, List.getElem?_map, show (pack 6 b)[21]? = _ from hx]
    exact hsym ⟨x.toNat % 4, Nat.mod_lt _ (by decide)⟩
  · intro v
    obtain ⟨x, hx⟩ := pack_last (r := 4) (le64_length v) rfl (by decide)
    exact ⟨_, hx, by omega⟩

end Sys2Proof.Machine
end

section
/-! PROOFS. The command word (30_encoding.md R60 to R64). -/

namespace Sys2Proof.Machine

/-- The encoding family of Laws/PerInstr.lean, for every command. -/
theorem encoding_statement (i : Instr) : Laws.Encoding.Statement i := by
  cases i with
  | enc32 => exact Laws.Encoding.enc32
  | dec32 => exact Laws.Encoding.dec32
  | enc64 => exact Laws.Encoding.enc64
  | dec64 => exact Laws.Encoding.dec64
  | enc32b => exact Laws.Encoding.enc32b
  | dec32b => exact Laws.Encoding.dec32b
  | enc64b => exact Laws.Encoding.enc64b
  | dec64b => exact Laws.Encoding.dec64b
  | rsv8 => exact Laws.Encoding.rsv8
  | rsv9 => exact Laws.Encoding.rsv9
  | encf16 => exact Laws.Encoding.encf16
  | decf16 => exact Laws.Encoding.decf16
  | rsv12 => exact Laws.Encoding.rsv12
  | rsv13 => exact Laws.Encoding.rsv13
  | encf8 => exact Laws.Encoding.encf8
  | decf8 => exact Laws.Encoding.decf8

theorem decodeCmd_encode (i : Instr) : decodeCmd (encode i) = i := (encoding_statement i).1

/-- The bytes of a table word of eight bits are that one byte. -/
theorem tableBytes_byte (b : Byte) : tableBytes 8 b.toNat = [b] := by simp [tableBytes, List.range_succ]

theorem decode_notFourBits {b : Byte} (h : 16 ≤ b.toNat) : decode [b] = .error .notFourBits :=
  if_neg (Nat.not_lt.2 h)

/-- Settles O1: the sixteen words by evaluation, and each rejection by its case of the decoder. -/
theorem commandWordsDecode : Obligations.CommandWordsDecode := by
  refine ⟨by decide, by decide, fun b hb => ⟨decode_notFourBits hb, ?_⟩, rfl, fun _ _ _ => rfl⟩
  rw [decodeTableWord, tableBytes_byte, decode_notFourBits hb]

/-- Settles O2: one direction command by command, the other value by value. -/
theorem decodeAndEncodeAgree : Obligations.DecodeAndEncodeAgree := by
  refine ⟨fun i => ?_, by decide⟩
  obtain ⟨hcmd, hbytes, -⟩ := encoding_statement i
  exact ⟨hcmd, hbytes⟩

/-- Settles O3: the sixteen values of CMD. -/
theorem reservedCodesAreFixedWidthB32 : Obligations.ReservedCodesAreFixedWidthB32 := by
  unfold Obligations.ReservedCodesAreFixedWidthB32
  decide

end Sys2Proof.Machine
end

section
/-! PROOFS. The inverse tables and the substitution stage (30_encoding.md R69 to R71; 40_datapath.md R107, R108). What
is said of one character is said of all 256 codes; what is said of a text follows by induction. -/

namespace Sys2Proof.Machine

/-! ## The inverse tables -/

/-- A code INV64 gives a value is the symbol of that value (R71). -/
theorem mapSymbol_of_symbolValue_b64u {c : Byte} {v : Nat} (h : symbolValue .b64u c = some v) :
    mapSymbol .b64u v = c := by
  have key : ∀ n : Fin 256, ∀ u ∈ symbolValue .b64u (BitVec.ofFin n), mapSymbol .b64u u = BitVec.ofFin n := by
    decide +kernel
  exact key c.toFin v h

/-- A code INV32 gives a value is the symbol of that value or, for a letter, its lower-case form (R69). -/
theorem mapSymbol_of_symbolValue_b32 {c : Byte} {v : Nat} (h : symbolValue .b32 c = some v) :
    mapSymbol .b32 v = c ∨ v < 26 ∧ mapSymbol .b32 v + 0x20#8 = c := by
  have key : ∀ n : Fin 256, ∀ u ∈ symbolValue .b32 (BitVec.ofFin n),
      mapSymbol .b32 u = BitVec.ofFin n ∨ u < 26 ∧ mapSymbol .b32 u + 0x20#8 = BitVec.ofFin n := by decide +kernel
  exact key c.toFin v h

/-- Settles O30: from a code to its symbol by the tables, from a symbol to its code by the alphabet's invariants. -/
theorem inverseTablesHoldOnlyTheAlphabet : Obligations.InverseTablesHoldOnlyTheAlphabet := by
  refine ⟨fun c v => ⟨fun h => ⟨symbolValue_lt h, mapSymbol_of_symbolValue_b64u h⟩, ?_⟩,
    fun c v => ⟨fun h => ⟨symbolValue_lt h, mapSymbol_of_symbolValue_b32 h⟩, ?_⟩⟩
  · rintro ⟨hv, rfl⟩
    exact symbolValue_mapSymbol hv
  · rintro ⟨hv, rfl | ⟨hletter, rfl⟩⟩
    · exact symbolValue_mapSymbol hv
    · exact symbolValue_eq_some_iff.2 (invOf_b32_lowerCase hletter)

/-! ## The substitution stage -/

/-- The two-stage decoder of one character agrees with the one table (R107). -/
theorem twoStageValue_eq (c : Byte) : twoStageValue c = symbolValue .b64u c := by
  have key : ∀ n : Fin 256, twoStageValue (BitVec.ofFin n) = symbolValue .b64u (BitVec.ofFin n) := by decide +kernel
  exact key c.toFin

/-- Past the first padding character the stage passes every character (R108). -/
@[simp] theorem substStage_true (t : List Byte) : substStage true t = t := by
  induction t with
  | nil => rfl
  | cons c t ih => simp [substStage, ih]

/-- Before the first padding character the stage substitutes every character (R108). -/
theorem substStage_append {t : List Byte} (ht : pad ∉ t) (rest : List Byte) :
    substStage false (t ++ rest) = t.map substBack ++ substStage false rest := by
  induction t with
  | nil => rfl
  | cons c t ih =>
    rw [List.mem_cons, not_or] at ht
    have hc : (c == pad) = false := beq_false_of_ne (Ne.symm ht.1)
    simp [substStage, hc, ih ht.2]

/-- The substitution keeps the padding character, so on padding the flag changes nothing. -/
theorem substStage_padding (m : Nat) :
    substStage false (List.replicate m pad) = (List.replicate m pad).map substBack := by
  rw [List.map_replicate, show substBack pad = pad from rfl]
  cases m with
  | zero => rfl
  | succ m => simp [List.replicate_succ, substStage]

/-- A text is what TRIM keeps and then padding (R111). -/
theorem take_trim_append_padding (t : List Byte) : t.take (trim t) ++ List.replicate (t.length - trim t) pad = t := by
  have hdrop : t.drop (trim t) = List.replicate (t.length - trim t) pad := by
    refine List.eq_replicate_iff.2 ⟨List.length_drop, fun c hc => ?_⟩
    obtain ⟨i, hi, rfl⟩ := List.mem_drop_iff_getElem.1 hc
    have hpad := getElem?_of_trim_le (t := t) (by omega) (Nat.le_add_right (trim t) i)
    exact Option.some.inj ((List.getElem?_eq_getElem (by omega)).symm.trans hpad)
  rw [← hdrop, List.take_append_drop]

/-- A text the validator passes holds no padding character among those it looked at. -/
theorem pad_notMem_of_validate {codec : Codec} {t : List Byte} {k : Nat} (h : (validate codec t k).isSome) :
    pad ∉ t.take k := by
  intro hmem
  rw [validate, validateAll_eq_none.2 ⟨pad, hmem, symbolValue_pad codec⟩] at h
  exact absurd h nofun

/-- Settles O31: the tables code by code; the flag rises only at the trailing padding, which both forms keep. -/
theorem substitutionStageAgrees : Obligations.SubstitutionStageAgrees := by
  refine ⟨by decide, twoStageValue_eq, fun t ht => ?_⟩
  rw [← take_trim_append_padding t, substStage_append (pad_notMem_of_validate ht), substStage_padding, List.map_append]

end Sys2Proof.Machine
end

section
/-! PROOFS. What each command answers on a given input, as equations of the shared procedures, and the result statements
of 41_encode_general.md, 42_decode_general.md and 43_fixed_width.md that they give. -/

namespace Sys2Proof.Machine

/-! ## The capacity check -/

theorem State.capacity_fits {s : State} {need : Nat} (h : need ≤ s.cfg.obufSize) :
    s.capacity false need = .ok none := by rw [State.capacity_fresh, if_neg (by omega)]

theorem State.capacity_enough {s : State} {need : Nat} (ho : s.offersCapacity) (h : need ≤ s.outCap) :
    s.capacity true need = .ok none := by rw [State.capacity_checked need ho, if_neg (by omega)]

theorem State.capacity_short {s : State} {need : Nat} (ho : s.offersCapacity) (h : s.outCap < need) :
    s.capacity true need = .ok (some .bufferTooSmall) := by rw [State.capacity_checked need ho, if_pos h]

/-! ## The general procedures on a presented input -/

section
variable {codec : Codec} {check : Bool} {s : State} {b : List Byte} (hb : s.presents b)
include hb

theorem encodeGeneral_eq_finish (hc : s.capacity check (paddedLen codec b.length) = .ok none) :
    encodeGeneral codec check s = .next (s.finish (paddedLen codec b.length) (canonicalText codec b)) := by
  simp only [encodeGeneral, State.readInput_eq_ok.2 hb, hc]

theorem encodeGeneral_eq_raise {k : FaultKind} (hc : s.capacity check (paddedLen codec b.length) = .ok (some k)) :
    encodeGeneral codec check s = .next (s.raise k) := by
  simp only [encodeGeneral, State.readInput_eq_ok.2 hb, hc]

theorem decodeGeneral_eq_raise {k : FaultKind} (hc : s.capacity check (decLen (width codec) (trim b)) = .ok (some k)) :
    decodeGeneral codec check s = .next (s.raise k) := by
  simp only [decodeGeneral, State.readInput_eq_ok.2 hb, hc]

theorem decodeGeneral_eq_invalid (hc : s.capacity check (decLen (width codec) (trim b)) = .ok none)
    (hv : validate codec b (trim b) = none) : decodeGeneral codec check s = .next (s.raise .invalidCharacter) := by
  simp only [decodeGeneral, State.readInput_eq_ok.2 hb, hc, decodeText, hv]

theorem decodeGeneral_eq_finish (hc : s.capacity check (decLen (width codec) (trim b)) = .ok none) {v : List Nat}
    (hv : validate codec b (trim b) = some v) :
    decodeGeneral codec check s = .next (s.finish (decLen (width codec) (trim b)) (unpack (width codec) v)) := by
  simp only [decodeGeneral, State.readInput_eq_ok.2 hb, hc, decodeText, hv]

end

/-! ## Results and faults -/

theorem yields_of_finish {i : Instr} {s : State} {n : Nat} {r : List Byte} (h : exec i s = .next (s.finish n r))
    (hr : r.length = n) : Yields i s r := ⟨_, h, rfl, rfl, hr.symm, s.finish_result hr⟩

theorem raises_of_raise {i : Instr} {s : State} {k : FaultKind} (h : exec i s = .next (s.raise k)) : Raises i s k :=
  ⟨_, h, rfl, rfl, rfl⟩

section
variable {i : Instr} {codec : Codec} {check : Bool} {s : State} {b : List Byte}

theorem yields_of_encodeGeneral (hi : exec i s = encodeGeneral codec check s) (hb : s.presents b)
    (hc : s.capacity check (paddedLen codec b.length) = .ok none) : Yields i s (canonicalText codec b) :=
  yields_of_finish (hi.trans (encodeGeneral_eq_finish hb hc)) (canonicalText_length codec b)

theorem yields_of_decodeGeneral (hi : exec i s = decodeGeneral codec check s) (hb : s.presents b)
    (hc : s.capacity check (decLen (width codec) (trim b)) = .ok none) {v : List Nat}
    (hv : validate codec b (trim b) = some v) : Yields i s (unpack (width codec) v) :=
  yields_of_finish (hi.trans (decodeGeneral_eq_finish hb hc hv)) (by rw [unpack_length, validate_length (trim_le b) hv])

theorem raises_of_decodeGeneral (hi : exec i s = decodeGeneral codec check s) (hb : s.presents b)
    (hc : s.capacity check (decLen (width codec) (trim b)) = .ok none)
    (hv : ∃ j, j < trim b ∧ symbolValue codec (b.getD j 0#8) = none) : Raises i s .invalidCharacter :=
  raises_of_raise (hi.trans (decodeGeneral_eq_invalid hb hc ((validate_eq_none (trim_le b)).2 hv)))

end

/-- What TRIM keeps of a valid text unpacks to `floor(k·w/8)` bytes (R99). -/
theorem unpack_length_of_validate {codec : Codec} {t : List Byte} {v : List Nat}
    (hv : validate codec t (trim t) = some v) :
    (unpack (width codec) v).length = decLen (width codec) (trim t) := by
  rw [unpack_length, validate_length (trim_le t) hv]

/-- Settles O36: on an input that fits, both encoders finish with the canonical text. -/
theorem freshEncodeResult : Obligations.FreshEncodeResult := by
  have result : ∀ (codec : Codec) (i : Instr) (s : State) (b : List Byte), exec i s = encodeGeneral codec false s →
      s.presents b → paddedLen codec b.length ≤ s.cfg.obufSize →
      Yields i s (canonicalText codec b) ∧ ∃ t, exec i s = .next t ∧ t.outLen = paddedLen codec b.length := by
    intro codec i s b hi hb hfit
    have hc := State.capacity_fits hfit
    exact ⟨yields_of_encodeGeneral hi hb hc, _, hi.trans (encodeGeneral_eq_finish hb hc), rfl⟩
  exact fun s b hb => ⟨result .b32 .enc32 s b rfl hb, result .b64u .enc64 s b rfl hb⟩

/-- Settles O37: the capacity check decides between the text and the fault. -/
theorem bufferedEncodeResult : Obligations.BufferedEncodeResult := fun _ _ hb ho =>
  ⟨fun h => yields_of_encodeGeneral (codec := .b32) rfl hb (State.capacity_enough ho h),
    fun h => raises_of_raise (encodeGeneral_eq_raise (codec := .b32) hb (State.capacity_short ho h)),
    fun h => yields_of_encodeGeneral (codec := .b64u) rfl hb (State.capacity_enough ho h),
    fun h => raises_of_raise (encodeGeneral_eq_raise (codec := .b64u) hb (State.capacity_short ho h))⟩

/-- Settles O38: on a text whose bytes fit, the validator decides between the bytes and the fault. -/
theorem freshDecodeResult : Obligations.FreshDecodeResult := fun _ _ ht =>
  ⟨fun hfit =>
      ⟨fun _ hv => ⟨yields_of_decodeGeneral (codec := .b32) rfl ht (State.capacity_fits hfit) hv,
        unpack_length_of_validate (codec := .b32) hv⟩,
        raises_of_decodeGeneral (codec := .b32) rfl ht (State.capacity_fits hfit)⟩,
    fun hfit =>
      ⟨fun _ hv => ⟨yields_of_decodeGeneral (codec := .b64u) rfl ht (State.capacity_fits hfit) hv,
        unpack_length_of_validate (codec := .b64u) hv⟩,
        raises_of_decodeGeneral (codec := .b64u) rfl ht (State.capacity_fits hfit)⟩⟩

/-- Settles O39: the capacity check comes first, then the validator decides. -/
theorem bufferedDecodeResult : Obligations.BufferedDecodeResult := fun _ _ ht ho =>
  ⟨fun h => raises_of_raise (decodeGeneral_eq_raise (codec := .b32) ht (State.capacity_short ho h)),
    fun h =>
      ⟨fun _ => yields_of_decodeGeneral (codec := .b32) rfl ht (State.capacity_enough ho h),
        raises_of_decodeGeneral (codec := .b32) rfl ht (State.capacity_enough ho h)⟩,
    fun h => raises_of_raise (decodeGeneral_eq_raise (codec := .b64u) ht (State.capacity_short ho h)),
    fun h =>
      ⟨fun _ => yields_of_decodeGeneral (codec := .b64u) rfl ht (State.capacity_enough ho h),
        raises_of_decodeGeneral (codec := .b64u) rfl ht (State.capacity_enough ho h)⟩⟩

/-! ## The fixed-width commands -/

theorem execEncf16_eq {s : State} {b : List Byte} (h : Memory.readRange s.ibuf 0 16 = some b) :
    execEncf16 s = .next (s.finish 22 (fixedText b)) := by
  simp only [execEncf16, State.readIbuf_eq_ok.2 (show Memory.readRange s.ibuf 0 fixed16.fb = some b from h)]
  rfl

theorem execEncf8_eq {s : State} (h : s.written.ival = true) :
    execEncf8 s = .next (s.finish 11 (fixedText (le64 s.ival))) := by
  simp only [execEncf8, State.readIval_eq_ok.2 ⟨h, rfl⟩]
  rfl

theorem yields_encf16 {s : State} {b : List Byte} (h : Memory.readRange s.ibuf 0 16 = some b) :
    Yields .encf16 s (fixedText b) :=
  yields_of_finish (execEncf16_eq h) (by simp [Memory.readRange_length h, symCount])

theorem yields_encf8 {s : State} (h : s.written.ival = true) : Yields .encf8 s (fixedText (le64 s.ival)) :=
  yields_of_finish (execEncf8_eq h) (by simp [symCount])

/-- The canonical text is the fixed-width text and then the padding (R118). -/
theorem canonicalText_b64u (b : List Byte) :
    canonicalText .b64u b = fixedText b ++ List.replicate (padCount .b64u b.length) pad := rfl

/-- Settles O40: each reads its one operand, and R109 counts the symbols and the padding of 16 and of 8 bytes. -/
theorem fixedEncodeResult : Obligations.FixedEncodeResult := by
  refine fun s => ⟨fun b hb h => ⟨yields_encf16 h, ?_, ?_⟩, fun h => ⟨yields_encf8 h, ?_, ?_⟩⟩
  · simp [hb, symCount]
  · rw [canonicalText_b64u, hb]
    rfl
  · simp [symCount]
  · rw [canonicalText_b64u, le64_length]
    rfl

section
variable {s : State} {p : FixedWidth} (hw : s.written.inLen = true) (hle : s.inLen ≤ s.cfg.ibufSize)
include hw hle

theorem State.decodeFixed_of_ne (h : s.inLen ≠ p.fc) : s.decodeFixed p = .ok (.error .lengthMismatch) := by
  simp only [State.decodeFixed, State.readInLen_eq_ok.2 ⟨hw, hle, rfl⟩, if_neg h]

theorem State.decodeFixed_of_validate {t : List Byte} {v : List Nat} (h : s.inLen = p.fc)
    (ht : Memory.readRange s.ibuf 0 p.fc = some t) (hv : validate .b64u t p.fc = some v) :
    s.decodeFixed p = .ok (.ok (unpack 6 v)) := by
  simp only [State.decodeFixed, State.readInLen_eq_ok.2 ⟨hw, hle, rfl⟩, if_pos h, State.readIbuf_eq_ok.2 ht, decodeText,
    hv, width_b64u]

theorem State.decodeFixed_of_invalid {t : List Byte} (h : s.inLen = p.fc) (ht : Memory.readRange s.ibuf 0 p.fc = some t)
    (hv : ∃ j, j < p.fc ∧ symbolValue .b64u (t.getD j 0#8) = none) :
    s.decodeFixed p = .ok (.error .invalidCharacter) := by
  have hnone := (validate_eq_none (Memory.readRange_length ht).ge).2 hv
  simp only [State.decodeFixed, State.readInLen_eq_ok.2 ⟨hw, hle, rfl⟩, if_pos h, State.readIbuf_eq_ok.2 ht, decodeText,
    hnone]

end

/-- What a fixed-width decoder validates unpacks to its number of bytes. -/
theorem unpack_length_of_fixed {t : List Byte} {v : List Nat} {k : Nat} (ht : t.length = k)
    (hv : validate .b64u t k = some v) : (unpack 6 v).length = decLen 6 k := by
  rw [unpack_length, validate_length ht.ge hv]

section
variable {s : State} {k : FaultKind} {b : List Byte}

theorem execDecf16_of_ok (h : s.decodeFixed fixed16 = .ok (.ok b)) : execDecf16 s = .next (s.finish 16 b) := by
  simp only [execDecf16, h]

theorem execDecf16_of_error (h : s.decodeFixed fixed16 = .ok (.error k)) : execDecf16 s = .next (s.raise k) := by
  simp only [execDecf16, h]

theorem execDecf8_of_ok (h : s.decodeFixed fixed8 = .ok (.ok b)) : execDecf8 s = .next (s.finishIval (unle64 b)) := by
  simp only [execDecf8, h]

theorem execDecf8_of_error (h : s.decodeFixed fixed8 = .ok (.error k)) : execDecf8 s = .next (s.raiseIval k) := by
  simp only [execDecf8, h]

end

theorem raises_of_raiseIval {s : State} {k : FaultKind} (h : execDecf8 s = .next (s.raiseIval k)) : Raises .decf8 s k :=
  ⟨_, h, rfl, rfl, rfl⟩

/-- Settles O41: DECODE_FIXED compares the length first, then validates the 22 characters. -/
theorem fixedDecode16Result : Obligations.FixedDecode16Result := by
  refine fun s hw hle => ⟨fun hne => ?_, fun t heq ht => ⟨fun v hv => ?_, fun hbad => ?_⟩⟩
  · exact raises_of_raise (execDecf16_of_error (State.decodeFixed_of_ne hw hle hne))
  · have hlen : (unpack 6 v).length = 16 := unpack_length_of_fixed (Memory.readRange_length ht) hv
    exact ⟨yields_of_finish (execDecf16_of_ok (State.decodeFixed_of_validate hw hle heq ht hv)) hlen, hlen⟩
  · exact raises_of_raise (execDecf16_of_error (State.decodeFixed_of_invalid hw hle heq ht hbad))

/-- Settles O42: the same with 11 characters, and the bytes go to IVAL. -/
theorem fixedDecode8Result : Obligations.FixedDecode8Result := by
  refine fun s hw hle => ⟨fun hne => ?_, fun t heq ht => ⟨fun v hv => ?_, fun hbad => ?_⟩⟩
  · exact raises_of_raiseIval (execDecf8_of_error (State.decodeFixed_of_ne hw hle hne))
  · exact ⟨_, execDecf8_of_ok (State.decodeFixed_of_validate hw hle heq ht hv), rfl,
      unpack_length_of_fixed (Memory.readRange_length ht) hv, rfl, rfl, rfl, rfl⟩
  · exact raises_of_raiseIval (execDecf8_of_error (State.decodeFixed_of_invalid hw hle heq ht hbad))

/-- Settles O43: a reserved code raises, and raising keeps every operand. -/
theorem reservedCodesRaise : Obligations.ReservedCodesRaise := by
  intro s i hi
  have hr : exec i s = .next (s.raise .reservedCommand) := by obtain rfl | rfl | rfl | rfl := hi <;> rfl
  exact ⟨raises_of_raise hr, _, hr, rfl, rfl, rfl, rfl, rfl, rfl, rfl⟩

end Sys2Proof.Machine
end

section
/-! PROOFS. When a command runs (10_state.md R27; 40_datapath.md R121; 70_reset_and_hazards.md R223): exactly where
everything it reads holds a value and is within bounds. -/

namespace Sys2Proof.Machine

/-! ## A command that runs is ready -/

/-- Every element of a presented input holds a value. -/
theorem State.presents.read_ne_none {s : State} {b : List Byte} (h : s.presents b) :
    ∀ j, j < s.inLen → Memory.read s.ibuf j ≠ none := by
  obtain ⟨-, hlen, -, hr⟩ := h
  have hne : Memory.readRange s.ibuf 0 s.inLen ≠ none := by rw [hlen, hr]; simp
  simpa using Memory.readRange_ne_none.1 hne

/-- What makes a general command ready: the input it is presented, and the capacity its MODE asks for. -/
theorem State.ready_of_presents {s : State} {i : Instr} {b : List Byte} (hb : s.presents b)
    (hcount : inputCount i s.inLen ≤ s.inLen) (hival : readsIval i = false)
    (hcap : i.mode = .buf → s.offersCapacity) (hfit : i.mode = .gen → neededLen i b ≤ s.cfg.obufSize) : s.Ready i where
  inLenWritten := fun _ => hb.1
  inLenFits := fun _ => hb.2.2.1
  inputWritten := fun j hj => hb.read_ne_none j (hj.trans_le hcount)
  ivalWritten := fun h => absurd (hival.symm.trans h) nofun
  capacityOffered := fun h => hcap (by simpa [readsOutCap] using h)
  freshFits := fun hm c hc => State.presents_unique hb hc ▸ hfit hm

/-- A fixed-width decode of the wrong length reads IN_LEN alone. -/
theorem State.ready_of_length {s : State} {i : Instr} (hw : s.written.inLen = true) (hle : s.inLen ≤ s.cfg.ibufSize)
    (hcount : inputCount i s.inLen = 0) (hival : readsIval i = false) (hcap : i.mode ≠ .buf) (hgen : i.mode ≠ .gen) :
    s.Ready i where
  inLenWritten := fun _ => hw
  inLenFits := fun _ => hle
  inputWritten := fun j hj => absurd (hcount ▸ hj) (Nat.not_lt_zero j)
  ivalWritten := fun h => absurd (hival.symm.trans h) nofun
  capacityOffered := fun h => absurd (by simpa [readsOutCap] using h) hcap
  freshFits := fun h => absurd h hgen

theorem State.presents_of_range {s : State} {n : Nat} {t : List Byte} (hw : s.written.inLen = true)
    (hle : s.inLen ≤ s.cfg.ibufSize) (hn : s.inLen = n) (ht : Memory.readRange s.ibuf 0 n = some t) : s.presents t := by
  have hlen := Memory.readRange_length ht
  exact ⟨hw, hn.trans hlen.symm, hle, hlen ▸ ht⟩

theorem ready_of_exec {i : Instr} {s t : State} (h : exec i s = .next t) : s.Ready i := by
  have enc : ∀ codec check, encodeGeneral codec check s = .next t →
      ∃ b, s.presents b ∧ (check = true → s.offersCapacity) ∧
        (check = false → paddedLen codec b.length ≤ s.cfg.obufSize) := by
    intro codec check h
    obtain ⟨b, hb, ⟨hc, ho, -, -⟩ | ⟨hfit, hcap, -⟩⟩ := encodeGeneral_cases h
    · exact ⟨b, hb, fun _ => ho, fun e => absurd (hc.symm.trans e) nofun⟩
    · exact ⟨b, hb, fun e => (hcap e).1, fun _ => hfit⟩
  have dec : ∀ codec check, decodeGeneral codec check s = .next t →
      ∃ b, s.presents b ∧ (check = true → s.offersCapacity) ∧
        (check = false → decLen (width codec) (trim b) ≤ s.cfg.obufSize) := by
    intro codec check h
    obtain ⟨b, hb, ⟨hc, ho, -, -⟩ | ⟨hfit, hcap, -⟩⟩ := decodeGeneral_cases h
    · exact ⟨b, hb, fun _ => ho, fun e => absurd (hc.symm.trans e) nofun⟩
    · exact ⟨b, hb, fun e => (hcap e).1, fun _ => hfit⟩
  cases i with
  | enc32 | enc64 =>
    obtain ⟨b, hb, -, hfit⟩ := enc _ false h
    exact State.ready_of_presents hb le_rfl rfl nofun fun _ => hfit rfl
  | enc32b | enc64b =>
    obtain ⟨b, hb, hcap, -⟩ := enc _ true h
    exact State.ready_of_presents hb le_rfl rfl (fun _ => hcap rfl) nofun
  | dec32 | dec64 =>
    obtain ⟨b, hb, -, hfit⟩ := dec _ false h
    exact State.ready_of_presents hb le_rfl rfl nofun fun _ => hfit rfl
  | dec32b | dec64b =>
    obtain ⟨b, hb, hcap, -⟩ := dec _ true h
    exact State.ready_of_presents hb le_rfl rfl (fun _ => hcap rfl) nofun
  | rsv8 | rsv9 | rsv12 | rsv13 => exact ⟨nofun, nofun, nofun, nofun, nofun, nofun⟩
  | encf16 =>
    obtain ⟨b, hb, -⟩ := execEncf16_cases h
    have hr : ∀ j, j < 16 → Memory.read s.ibuf (0 + j) ≠ none := Memory.readRange_ne_none.1 (by rw [hb]; simp)
    exact ⟨nofun, nofun, fun j hj => by simpa using hr j hj, nofun, nofun, nofun⟩
  | encf8 =>
    obtain ⟨hw, -⟩ := execEncf8_cases h
    exact ⟨nofun, nofun, nofun, fun _ => hw, nofun, nofun⟩
  | decf16 =>
    obtain ⟨hw, hle, ⟨hne, -⟩ | ⟨heq, x, hx, -⟩⟩ := execDecf16_cases h
    · exact State.ready_of_length hw hle (if_neg hne) rfl nofun nofun
    · exact State.ready_of_presents (State.presents_of_range hw hle heq hx) (by simp [inputCount, heq]) rfl nofun nofun
  | decf8 =>
    obtain ⟨hw, hle, ⟨hne, -⟩ | ⟨heq, x, hx, -⟩⟩ := execDecf8_cases h
    · exact State.ready_of_length hw hle (if_neg hne) rfl nofun nofun
    · exact State.ready_of_presents (State.presents_of_range hw hle heq hx) (by simp [inputCount, heq]) rfl nofun nofun

/-! ## A command that is ready runs -/

theorem encodeGeneral_next {codec : Codec} {check : Bool} {s : State} {b : List Byte} (hb : s.presents b)
    {r : Option FaultKind} (hc : s.capacity check (paddedLen codec b.length) = .ok r) :
    ∃ t, encodeGeneral codec check s = .next t := by
  cases r with
  | none => exact ⟨_, encodeGeneral_eq_finish hb hc⟩
  | some k => exact ⟨_, encodeGeneral_eq_raise hb hc⟩

theorem decodeGeneral_next {codec : Codec} {check : Bool} {s : State} {b : List Byte} (hb : s.presents b)
    {r : Option FaultKind} (hc : s.capacity check (decLen (width codec) (trim b)) = .ok r) :
    ∃ t, decodeGeneral codec check s = .next t := by
  cases r with
  | none =>
    cases hv : validate codec b (trim b) with
    | none => exact ⟨_, decodeGeneral_eq_invalid hb hc hv⟩
    | some v => exact ⟨_, decodeGeneral_eq_finish hb hc hv⟩
  | some k => exact ⟨_, decodeGeneral_eq_raise hb hc⟩

section
variable {s : State} {p : FixedWidth}

/-- A fixed-width decode answers where IN_LEN is in place and, with the right length, so is its text. -/
theorem State.decodeFixed_ok (hw : s.written.inLen = true) (hle : s.inLen ≤ s.cfg.ibufSize)
    (hr : s.inLen = p.fc → ∀ j, j < p.fc → Memory.read s.ibuf j ≠ none) : ∃ d, s.decodeFixed p = .ok d := by
  by_cases hn : s.inLen = p.fc
  · obtain ⟨t, -, hlen, -, ht⟩ := State.presents_of_written hw hle (hn.symm ▸ hr hn)
    have htext : s.readIbuf p.fc = .ok t := State.readIbuf_eq_ok.2 (hn ▸ hlen.symm ▸ ht)
    refine ⟨decodeText .b64u t p.fc, ?_⟩
    simp only [State.decodeFixed, State.readInLen_eq_ok.2 ⟨hw, hle, rfl⟩, if_pos hn, htext]
  · exact ⟨_, State.decodeFixed_of_ne hw hle hn⟩

theorem execDecf16_next {d : Decoded} (h : s.decodeFixed fixed16 = .ok d) : ∃ t, execDecf16 s = .next t := by
  cases d with
  | error k => exact ⟨_, execDecf16_of_error h⟩
  | ok b => exact ⟨_, execDecf16_of_ok h⟩

theorem execDecf8_next {d : Decoded} (h : s.decodeFixed fixed8 = .ok d) : ∃ t, execDecf8 s = .next t := by
  cases d with
  | error k => exact ⟨_, execDecf8_of_error h⟩
  | ok b => exact ⟨_, execDecf8_of_ok h⟩

end

theorem exec_of_ready {i : Instr} {s : State} (h : s.Ready i) : ∃ t, exec i s = .next t := by
  cases i with
  | enc32 | enc64 =>
    obtain ⟨b, hb⟩ := State.presents_of_written (h.inLenWritten rfl) (h.inLenFits rfl) h.inputWritten
    exact encodeGeneral_next hb (State.capacity_fits (h.freshFits rfl b hb))
  | dec32 | dec64 =>
    obtain ⟨b, hb⟩ := State.presents_of_written (h.inLenWritten rfl) (h.inLenFits rfl) h.inputWritten
    exact decodeGeneral_next hb (State.capacity_fits (h.freshFits rfl b hb))
  | enc32b | enc64b =>
    obtain ⟨b, hb⟩ := State.presents_of_written (h.inLenWritten rfl) (h.inLenFits rfl) h.inputWritten
    exact encodeGeneral_next hb (State.capacity_checked _ (h.capacityOffered rfl))
  | dec32b | dec64b =>
    obtain ⟨b, hb⟩ := State.presents_of_written (h.inLenWritten rfl) (h.inLenFits rfl) h.inputWritten
    exact decodeGeneral_next hb (State.capacity_checked _ (h.capacityOffered rfl))
  | rsv8 | rsv9 | rsv12 | rsv13 => exact ⟨_, rfl⟩
  | encf16 =>
    have hne : Memory.readRange s.ibuf 0 16 ≠ none := Memory.readRange_ne_none.2 fun j hj => by
      simpa using h.inputWritten j hj
    obtain ⟨b, hb⟩ := Option.ne_none_iff_exists'.1 hne
    exact ⟨_, execEncf16_eq hb⟩
  | encf8 => exact ⟨_, execEncf8_eq (h.ivalWritten rfl)⟩
  | decf16 =>
    obtain ⟨d, hd⟩ := State.decodeFixed_ok (p := fixed16) (h.inLenWritten rfl) (h.inLenFits rfl) fun hn j hj =>
      h.inputWritten j (hj.trans_eq (if_pos hn).symm)
    exact execDecf16_next hd
  | decf8 =>
    obtain ⟨d, hd⟩ := State.decodeFixed_ok (p := fixed8) (h.inLenWritten rfl) (h.inLenFits rfl) fun hn j hj =>
      h.inputWritten j (hj.trans_eq (if_pos hn).symm)
    exact execDecf8_next hd

/-- A command that is not ready is refused: it cannot stop with a fault of the model. -/
theorem exec_refused_of_not_ready {i : Instr} {s : State} (h : ¬ s.Ready i) : ∃ r, exec i s = .refused r := by
  cases he : exec i s with
  | next t => exact absurd (ready_of_exec he) h
  | fault f => exact absurd he (exec_ne_fault i s f)
  | refused r => exact ⟨r, rfl⟩

/-- Settles O44: the two directions, command by command. -/
theorem commandsRunExactlyWhenReady : Obligations.CommandsRunExactlyWhenReady := fun _ _ =>
  ⟨exec_of_ready, exec_refused_of_not_ready⟩

end Sys2Proof.Machine
end

section
/-! PROOFS. The exact causes of BufferTooSmall and InvalidCharacter (60_exceptions.md R192, R194, R199). A command the
table of R198 does not allow the fault never reports it; each of the others compares or validates what it is
presented. -/

namespace Sys2Proof.Machine

section
variable {codec : Codec} {check : Bool} {s t : State}

theorem encodeGeneral_bufferTooSmall_iff (h : encodeGeneral codec true s = .next t) :
    t.status = .raised .bufferTooSmall ↔ ∃ b, s.presents b ∧ s.outCap < paddedLen codec b.length := by
  obtain ⟨b, hb, ⟨-, -, hlt, rfl⟩ | ⟨-, hcap, rfl⟩⟩ := encodeGeneral_cases h
  · exact ⟨fun _ => ⟨b, hb, hlt⟩, fun _ => rfl⟩
  · refine ⟨nofun, fun ⟨c, hc, hlt⟩ => ?_⟩
    rw [State.presents_unique hc hb] at hlt
    exact absurd (hcap rfl).2 (Nat.not_le.2 hlt)

theorem decodeGeneral_bufferTooSmall_iff (h : decodeGeneral codec true s = .next t) :
    t.status = .raised .bufferTooSmall ↔ ∃ b, s.presents b ∧ s.outCap < decLen (width codec) (trim b) := by
  obtain ⟨b, hb, ⟨-, -, hlt, rfl⟩ | ⟨-, hcap, hend⟩⟩ := decodeGeneral_cases h
  · exact ⟨fun _ => ⟨b, hb, hlt⟩, fun _ => rfl⟩
  · have hne : t.status ≠ .raised .bufferTooSmall := by obtain ⟨-, rfl⟩ | ⟨v, -, rfl⟩ := hend <;> exact nofun
    refine ⟨fun e => absurd e hne, fun ⟨c, hc, hlt⟩ => ?_⟩
    rw [State.presents_unique hc hb] at hlt
    exact absurd (hcap rfl).2 (Nat.not_le.2 hlt)

theorem decodeGeneral_invalidCharacter_iff (h : decodeGeneral codec check s = .next t) :
    t.status = .raised .invalidCharacter ↔
      ∃ b, s.presents b ∧ (check = true → decLen (width codec) (trim b) ≤ s.outCap) ∧
        ∃ j, j < trim b ∧ symbolValue codec (b.getD j 0#8) = none := by
  obtain ⟨b, hb, ⟨hc, -, hlt, rfl⟩ | ⟨-, hcap, ⟨hv, rfl⟩ | ⟨v, hv, rfl⟩⟩⟩ := decodeGeneral_cases h
  · refine ⟨nofun, fun ⟨c, hc', hle, _⟩ => ?_⟩
    rw [State.presents_unique hc' hb] at hle
    exact absurd (hle hc) (Nat.not_le.2 hlt)
  · exact ⟨fun _ => ⟨b, hb, fun e => (hcap e).2, (validate_eq_none (trim_le b)).1 hv⟩, fun _ => rfl⟩
  · refine ⟨nofun, fun ⟨c, hc', _, hbad⟩ => ?_⟩
    rw [State.presents_unique hc' hb, ← validate_eq_none (trim_le b)] at hbad
    exact absurd (hv.symm.trans hbad) nofun

end

/-- DECODE_FIXED reports InvalidCharacter for a text of the right length with a character that is no symbol (R175). -/
theorem State.decodeFixed_invalidCharacter_iff {s : State} {p : FixedWidth} {d : Decoded}
    (h : s.decodeFixed p = .ok d) :
    d = .error .invalidCharacter ↔
      ∃ b, s.presents b ∧ s.inLen = p.fc ∧ ∃ j, j < p.fc ∧ symbolValue .b64u (b.getD j 0#8) = none := by
  obtain ⟨hw, hle, ⟨hne, rfl⟩ | ⟨heq, x, hx, rfl⟩⟩ := State.decodeFixed_cases h
  · exact ⟨nofun, fun ⟨_, _, heq, _⟩ => absurd heq hne⟩
  · have hpres := State.presents_of_range hw hle heq hx
    have hnone := validate_eq_none (codec := .b64u) (Memory.readRange_length hx).ge
    obtain ⟨hv, hd⟩ | ⟨v, hv, hd⟩ := decodeText_cases .b64u x p.fc <;> rw [hd]
    · exact ⟨fun _ => ⟨x, hpres, heq, hnone.1 hv⟩, fun _ => rfl⟩
    · refine ⟨nofun, fun ⟨b, hb, _, hbad⟩ => ?_⟩
      rw [State.presents_unique hb hpres, ← hnone] at hbad
      exact absurd (hv.symm.trans hbad) nofun

/-- DECF16 reports the fault of DECODE_FIXED. -/
theorem execDecf16_raised_iff {s t : State} (h : execDecf16 s = .next t) :
    ∃ d, s.decodeFixed fixed16 = .ok d ∧ ∀ k, t.status = .raised k ↔ d = .error k := by
  cases hd : s.decodeFixed fixed16 with
  | error r => exact absurd h (by simp [execDecf16, hd])
  | ok d =>
    cases d with
    | error k => obtain rfl := Host.Outcome.next.inj ((execDecf16_of_error hd).symm.trans h); exact ⟨_, rfl, by simp⟩
    | ok b => obtain rfl := Host.Outcome.next.inj ((execDecf16_of_ok hd).symm.trans h); exact ⟨_, rfl, by simp⟩

/-- DECF8 reports the fault of DECODE_FIXED. -/
theorem execDecf8_raised_iff {s t : State} (h : execDecf8 s = .next t) :
    ∃ d, s.decodeFixed fixed8 = .ok d ∧ ∀ k, t.status = .raised k ↔ d = .error k := by
  cases hd : s.decodeFixed fixed8 with
  | error r => exact absurd h (by simp [execDecf8, hd])
  | ok d =>
    cases d with
    | error k => obtain rfl := Host.Outcome.next.inj ((execDecf8_of_error hd).symm.trans h); exact ⟨_, rfl, by simp⟩
    | ok b => obtain rfl := Host.Outcome.next.inj ((execDecf8_of_ok hd).symm.trans h); exact ⟨_, rfl, by simp⟩

theorem execDecf16_invalidCharacter_iff {s t : State} (h : execDecf16 s = .next t) :
    t.status = .raised .invalidCharacter ↔
      ∃ b, s.presents b ∧ s.inLen = 22 ∧ ∃ j, j < 22 ∧ symbolValue .b64u (b.getD j 0#8) = none := by
  obtain ⟨d, hd, hst⟩ := execDecf16_raised_iff h
  exact (hst _).trans (State.decodeFixed_invalidCharacter_iff hd)

theorem execDecf8_invalidCharacter_iff {s t : State} (h : execDecf8 s = .next t) :
    t.status = .raised .invalidCharacter ↔
      ∃ b, s.presents b ∧ s.inLen = 11 ∧ ∃ j, j < 11 ∧ symbolValue .b64u (b.getD j 0#8) = none := by
  obtain ⟨d, hd, hst⟩ := execDecf8_raised_iff h
  exact (hst _).trans (State.decodeFixed_invalidCharacter_iff hd)

/-- A fault the table of R198 does not allow a command is never its STATUS. -/
theorem status_ne_of_mayRaise {i : Instr} {s t : State} {k : FaultKind} (h : exec i s = .next t)
    (hk : mayRaise i k = false) : t.status ≠ .raised k := fun hst =>
  absurd (hk.symm.trans (faultsByCommand i s t k h hst)) nofun

/-- Settles O50: the four B forms by their comparison, every other command by R198. -/
theorem bufferTooSmallExactly : Obligations.BufferTooSmallExactly := by
  intro i s t h
  cases i with
  | enc32b => simpa using encodeGeneral_bufferTooSmall_iff (codec := .b32) h
  | enc64b => simpa using encodeGeneral_bufferTooSmall_iff (codec := .b64u) h
  | dec32b => simpa using decodeGeneral_bufferTooSmall_iff (codec := .b32) h
  | dec64b => simpa using decodeGeneral_bufferTooSmall_iff (codec := .b64u) h
  | enc32 | enc64 | dec32 | dec64 | encf16 | encf8 | decf16 | decf8 | rsv8 | rsv9 | rsv12 | rsv13 =>
    simpa using status_ne_of_mayRaise (k := .bufferTooSmall) h rfl

/-- Settles O51: the six decoders by their own cause, every other command by R198. -/
theorem invalidCharacterExactly : Obligations.InvalidCharacterExactly := by
  intro i s t h
  cases i with
  | dec32 =>
    simpa [Instr.dir, Instr.reserved, Instr.mode, Instr.codec] using
      decodeGeneral_invalidCharacter_iff (codec := .b32) (check := false) h
  | dec64 =>
    simpa [Instr.dir, Instr.reserved, Instr.mode, Instr.codec] using
      decodeGeneral_invalidCharacter_iff (codec := .b64u) (check := false) h
  | dec32b =>
    simpa [Instr.dir, Instr.reserved, Instr.mode, Instr.codec] using
      decodeGeneral_invalidCharacter_iff (codec := .b32) (check := true) h
  | dec64b =>
    simpa [Instr.dir, Instr.reserved, Instr.mode, Instr.codec] using
      decodeGeneral_invalidCharacter_iff (codec := .b64u) (check := true) h
  | decf16 => simpa [Instr.dir, Instr.reserved, Instr.mode, Instr.codec] using execDecf16_invalidCharacter_iff h
  | decf8 => simpa [Instr.dir, Instr.reserved, Instr.mode, Instr.codec] using execDecf8_invalidCharacter_iff h
  | enc32 | enc64 | enc32b | enc64b | encf16 | encf8 | rsv8 | rsv9 | rsv12 | rsv13 =>
    simpa [Instr.dir, Instr.reserved] using status_ne_of_mayRaise (k := .invalidCharacter) h rfl

end Sys2Proof.Machine
end

section
/-! PROOFS. Commands one after another: the round trips (41_encode_general.md R135, 43_fixed_width.md R177), re-encoding
(42_decode_general.md R156), letter case (40_datapath.md R106), and the buffer-supplied forms beside the fresh ones
(30_encoding.md R78). -/

namespace Sys2Proof.Machine

/-! ## What a result says of its input -/

theorem yields_inj {i : Instr} {s : State} {n : Nat} {r q : List Byte} (h : Yields i s r)
    (he : exec i s = .next (s.finish n q)) (hq : q.length = n) : r = q := by
  obtain ⟨t, ht, -, -, -, hr⟩ := h
  obtain rfl := Host.Outcome.next.inj (he.symm.trans ht)
  exact Option.some.inj (hr.symm.trans (s.finish_result hq))

section
variable {i : Instr} {codec : Codec} {check : Bool} {s : State} {b r : List Byte}

/-- An encoder that yields a text had room for it, and the text is the canonical one. -/
theorem encode_of_yields (hi : exec i s = encodeGeneral codec check s) (hb : s.presents b) (h : Yields i s r) :
    r = canonicalText codec b ∧ paddedLen codec b.length ≤ s.cfg.obufSize ∧
      (check = true → paddedLen codec b.length ≤ s.outCap) := by
  have ⟨t, ht, hok, _⟩ := h
  obtain ⟨c, hc, ⟨-, -, -, rfl⟩ | ⟨hfit, hcap, rfl⟩⟩ := encodeGeneral_cases (hi.symm.trans ht)
  · exact absurd hok nofun
  · obtain rfl := State.presents_unique hc hb
    exact ⟨yields_inj h ht (canonicalText_length codec c), hfit, fun e => (hcap e).2⟩

/-- A decoder that yields bytes had room for them, and they are what its text unpacks to. -/
theorem decode_of_yields (hi : exec i s = decodeGeneral codec check s) (hb : s.presents b) (h : Yields i s r) :
    ∃ v, validate codec b (trim b) = some v ∧ r = unpack (width codec) v ∧
      decLen (width codec) (trim b) ≤ s.cfg.obufSize ∧ (check = true → decLen (width codec) (trim b) ≤ s.outCap) := by
  have ⟨t, ht, hok, _⟩ := h
  obtain ⟨c, hc, ⟨-, -, -, rfl⟩ | ⟨hfit, hcap, ⟨-, rfl⟩ | ⟨v, hv, rfl⟩⟩⟩ := decodeGeneral_cases (hi.symm.trans ht)
  · exact absurd hok nofun
  · exact absurd hok nofun
  · obtain rfl := State.presents_unique hc hb
    exact ⟨v, hv, yields_inj h ht (unpack_length_of_validate hv), hfit, fun e => (hcap e).2⟩

end

/-! ## Decoding a text of symbols -/

/-- The symbols of some bytes. -/
def symbolsOf (codec : Codec) (b : List Byte) : List Byte := (pack (width codec) b).map (mapSymbol codec)

@[simp] theorem symbolsOf_length (codec : Codec) (b : List Byte) :
    (symbolsOf codec b).length = symCount (width codec) b.length := by simp [symbolsOf]

theorem canonicalText_eq_symbolsOf (codec : Codec) (b : List Byte) :
    canonicalText codec b = symbolsOf codec b ++ List.replicate (padCount codec b.length) pad := rfl

/-- No symbol is the padding character, so TRIM keeps them all. -/
@[simp] theorem trim_symbolsOf (codec : Codec) (b : List Byte) :
    trim (symbolsOf codec b) = symCount (width codec) b.length := by
  refine le_antisymm ((trim_le _).trans (symbolsOf_length codec b).le) ?_
  by_contra hlt
  have hpad := getElem?_of_trim_le (t := symbolsOf codec b) (by simpa using Nat.lt_of_not_le hlt) le_rfl
  obtain ⟨g, hg, hsym⟩ := List.mem_map.1 (List.mem_of_getElem? hpad)
  exact mapSymbol_ne_pad (pack_lt hg) hsym

@[simp] theorem trim_canonicalText (codec : Codec) (b : List Byte) :
    trim (canonicalText codec b) = symCount (width codec) b.length := by
  rw [canonicalText_eq_symbolsOf, trim_append_padding, trim_symbolsOf]

/-- The symbols of some bytes validate to the groups they were mapped from. -/
theorem validate_symbolsOf (codec : Codec) (b : List Byte) :
    validate codec (symbolsOf codec b) (symCount (width codec) b.length) = some (pack (width codec) b) := by
  rw [validate, List.take_of_length_le (symbolsOf_length codec b).le]
  exact validateAll_map_mapSymbol fun _ => pack_lt

theorem validate_canonicalText (codec : Codec) (b : List Byte) :
    validate codec (canonicalText codec b) (symCount (width codec) b.length) = some (pack (width codec) b) := by
  rw [canonicalText_eq_symbolsOf, validate_append _ (symbolsOf_length codec b).ge, validate_symbolsOf]

theorem width_eq (codec : Codec) : width codec = 5 ∨ width codec = 6 := by cases codec <;> simp

/-- A general decoder gives back the bytes whose symbols it is presented, with any padding it may strip. -/
theorem yields_of_symbols {i : Instr} {codec : Codec} {s : State} {b text : List Byte}
    (hi : exec i s = decodeGeneral codec false s) (ht : s.presents text)
    (htrim : trim text = symCount (width codec) b.length)
    (hv : validate codec text (symCount (width codec) b.length) = some (pack (width codec) b))
    (hfit : b.length ≤ s.cfg.obufSize) : Yields i s b := by
  have hneed : decLen (width codec) (trim text) = b.length := by rw [htrim, decLen_symCount (width_eq codec)]
  have h := yields_of_decodeGeneral hi ht (State.capacity_fits (hneed ▸ hfit)) (htrim ▸ hv)
  rwa [unpack_pack (width_eq codec)] at h

/-- Settles O53: the text is the canonical one, and its symbols unpack to the bytes. -/
theorem generalRoundTrip : Obligations.GeneralRoundTrip := by
  have roundTrip : ∀ (codec : Codec) (enc dec : Instr) (s u : State) (b text : List Byte),
      exec enc s = encodeGeneral codec false s → exec dec u = decodeGeneral codec false u → s.presents b →
      u.presents text → b.length ≤ u.cfg.obufSize → Yields enc s text → Yields dec u b := by
    intro codec enc dec s u b text he hd hb ht hfit h
    obtain ⟨rfl, -⟩ := encode_of_yields he hb h
    exact yields_of_symbols hd ht (trim_canonicalText codec b) (validate_canonicalText codec b) hfit
  exact fun s u b text hb ht hfit =>
    ⟨roundTrip .b32 _ _ s u b text rfl rfl hb ht hfit, roundTrip .b64u _ _ s u b text rfl rfl hb ht hfit⟩

/-- Settles O56: the bytes are those of the canonical text, so encoding them gives it again. -/
theorem reencodingCanonicalText : Obligations.ReencodingCanonicalText := by
  have reencode : ∀ (codec : Codec) (enc dec : Instr) (s u : State) (bytes text : List Byte),
      exec enc u = encodeGeneral codec false u → exec dec s = decodeGeneral codec false s → s.presents text →
      u.presents bytes → text.length ≤ u.cfg.obufSize → (∃ b, text = canonicalText codec b) → Yields dec s bytes →
      Yields enc u text := by
    rintro codec enc dec s u bytes _ he hd ht hb hfit ⟨b, rfl⟩ h
    obtain ⟨v, hv, hbytes, -⟩ := decode_of_yields hd ht h
    rw [trim_canonicalText, validate_canonicalText] at hv
    obtain rfl : bytes = b := by rw [hbytes, ← Option.some.inj hv, unpack_pack (width_eq codec)]
    exact yields_of_encodeGeneral he hb (State.capacity_fits (canonicalText_length codec bytes ▸ hfit))
  exact fun s u bytes text ht hb hfit =>
    ⟨reencode .b32 _ _ s u bytes text rfl rfl ht hb hfit, reencode .b64u _ _ s u bytes text rfl rfl ht hb hfit⟩

/-! ## The fixed-width texts -/

section
variable {s u : State} {text : List Byte}

theorem fixedText_of_yields_encf16 {b : List Byte} (hb : Memory.readRange s.ibuf 0 16 = some b)
    (h : Yields .encf16 s text) : text = fixedText b :=
  yields_inj h (execEncf16_eq hb) (by simp [Memory.readRange_length hb, symCount])

theorem fixedText_of_yields_encf8 (h : Yields .encf8 s text) : text = fixedText (le64 s.ival) := by
  have ⟨t, ht, _⟩ := h
  obtain ⟨hw, -⟩ := execEncf8_cases ht
  exact yields_inj h (execEncf8_eq hw) (by simp [symCount])

/-- DECODE_FIXED gives back the bytes of the fixed-width text it is presented. -/
theorem decodeFixed_of_fixedText {p : FixedWidth} {b : List Byte} (ht : u.presents (fixedText b))
    (hp : symCount 6 b.length = p.fc) : u.decodeFixed p = .ok (.ok b) := by
  obtain ⟨hw, hlen, hle, hr⟩ := ht
  rw [fixedText_length, hp] at hlen hr
  have hv : validate .b64u (fixedText b) p.fc = some (pack 6 b) := hp ▸ validate_symbolsOf .b64u b
  rw [State.decodeFixed_of_validate hw hle hlen hr hv, unpack_pack (.inr rfl)]

/-- Settles O54: the text is the symbols of the value, and DECODE_FIXED unpacks them. -/
theorem fixedRoundTrip : Obligations.FixedRoundTrip := by
  refine fun s u text ht => ⟨fun b hb h => ?_, fun h => ?_⟩
  · obtain rfl := fixedText_of_yields_encf16 hb h
    have hlen := Memory.readRange_length hb
    exact yields_of_finish (execDecf16_of_ok (decodeFixed_of_fixedText ht (by rw [hlen]; rfl))) hlen
  · obtain rfl := fixedText_of_yields_encf8 h
    exact ⟨_, execDecf8_of_ok (decodeFixed_of_fixedText ht (by rw [le64_length]; rfl)), rfl, unle64_le64 s.ival⟩

/-- DEC64 reads a fixed-width text as a text with no padding to strip. -/
theorem yields_dec64_of_fixedText {b : List Byte} (ht : u.presents (fixedText b)) (hfit : b.length ≤ u.cfg.obufSize) :
    Yields .dec64 u b :=
  yields_of_symbols (codec := .b64u) rfl ht (trim_symbolsOf .b64u b) (validate_symbolsOf .b64u b) hfit

/-- Settles O55: either text is the symbols of its value. -/
theorem fixedTextDecodesGenerally : Obligations.FixedTextDecodesGenerally := by
  refine fun s u text ht hfit => ⟨fun b hb h => ?_, fun h => ?_⟩
  · obtain rfl := fixedText_of_yields_encf16 hb h
    exact yields_dec64_of_fixedText ht ((Memory.readRange_length hb).trans_le hfit)
  · obtain rfl := fixedText_of_yields_encf8 h
    exact yields_dec64_of_fixedText ht (by rw [le64_length]; omega)

end

/-! ## Letter case -/

theorem foldCase_eq_pad_iff (c : Byte) : foldCase c = pad ↔ c = pad := by
  have key : ∀ n : Fin 256, foldCase (BitVec.ofFin n) = pad ↔ BitVec.ofFin n = pad := by decide +kernel
  exact key c.toFin

/-- INV32 does not see the case of a letter (R106). -/
theorem symbolValue_foldCase (c : Byte) : symbolValue .b32 (foldCase c) = symbolValue .b32 c := by
  have key : ∀ n : Fin 256, symbolValue .b32 (foldCase (BitVec.ofFin n)) = symbolValue .b32 (BitVec.ofFin n) := by
    decide +kernel
  exact key c.toFin

theorem trim_map_foldCase (t : List Byte) : trim (t.map foldCase) = trim t := by
  induction t using List.reverseRecOn with
  | nil => rfl
  | append_singleton t c ih => simp [trim_concat, foldCase_eq_pad_iff, ih]

theorem validateAll_map_foldCase (t : List Byte) : validateAll .b32 (t.map foldCase) = validateAll .b32 t := by
  induction t with
  | nil => rfl
  | cons c t ih => simp only [List.map_cons, validateAll, symbolValue_foldCase, ih]

theorem validate_map_foldCase (t : List Byte) (k : Nat) : validate .b32 (t.map foldCase) k = validate .b32 t k := by
  rw [validate, ← List.map_take, validateAll_map_foldCase, validate]

/-- Settles O58: folding the case changes neither the effective count nor a character's value. -/
theorem decodeIgnoresCaseInB32 : Obligations.DecodeIgnoresCaseInB32 := by
  intro s u s' t t' i hi ht ht' hfold hcfg hcap hw h
  have htrim : trim t' = trim t := by rw [← trim_map_foldCase, hfold, trim_map_foldCase]
  have hval : validate .b32 t' (trim t) = validate .b32 t (trim t) := by
    rw [← validate_map_foldCase, hfold, validate_map_foldCase]
  have halike : EndsAlike s u i (exec i s) (exec i u) := by
    obtain rfl | rfl := hi <;>
      exact decodeGeneral_endsAlike_of_texts _ ht ht' htrim hval (State.capacity_congr hcfg hcap hw _)
  rw [h] at halike
  exact halike.same_result (by rintro rfl; simp at hi)

/-! ## The buffer-supplied forms -/

section
variable {s : State} {b : List Byte} (hb : s.presents b) (ho : s.offersCapacity)
include hb ho

theorem encodeGeneral_checked {codec : Codec} (h : paddedLen codec b.length ≤ s.outCap) :
    encodeGeneral codec true s = encodeGeneral codec false s := by
  rw [encodeGeneral_eq_finish hb (State.capacity_enough ho h),
    encodeGeneral_eq_finish hb (State.capacity_fits (h.trans ho.2))]

theorem decodeGeneral_checked {codec : Codec} (h : decLen (width codec) (trim b) ≤ s.outCap) :
    decodeGeneral codec true s = decodeGeneral codec false s := by
  have hc := State.capacity_enough ho h
  have hf := State.capacity_fits (h.trans ho.2)
  cases hv : validate codec b (trim b) with
  | none => rw [decodeGeneral_eq_invalid hb hc hv, decodeGeneral_eq_invalid hb hf hv]
  | some v => rw [decodeGeneral_eq_finish hb hc hv, decodeGeneral_eq_finish hb hf hv]

/-- A result of either encoder that OUT_CAP covers is a result of both. -/
theorem yields_encode_iff {codec : Codec} {fresh buffered : Instr} (hf : exec fresh s = encodeGeneral codec false s)
    (hi : exec buffered s = encodeGeneral codec true s) {r : List Byte} (hr : r.length ≤ s.outCap) :
    Yields fresh s r ↔ Yields buffered s r := by
  have same : paddedLen codec b.length ≤ s.outCap → (Yields fresh s r ↔ Yields buffered s r) := fun h => by
    simp only [Yields, hf, hi, encodeGeneral_checked hb ho h]
  constructor
  · intro h
    obtain ⟨rfl, -⟩ := encode_of_yields hf hb h
    exact (same (canonicalText_length codec b ▸ hr)).1 h
  · intro h
    obtain ⟨-, -, hcap⟩ := encode_of_yields hi hb h
    exact (same (hcap rfl)).2 h

/-- A result of either decoder that OUT_CAP covers is a result of both. -/
theorem yields_decode_iff {codec : Codec} {fresh buffered : Instr} (hf : exec fresh s = decodeGeneral codec false s)
    (hi : exec buffered s = decodeGeneral codec true s) {r : List Byte} (hr : r.length ≤ s.outCap) :
    Yields fresh s r ↔ Yields buffered s r := by
  have same : decLen (width codec) (trim b) ≤ s.outCap → (Yields fresh s r ↔ Yields buffered s r) := fun h => by
    simp only [Yields, hf, hi, decodeGeneral_checked hb ho h]
  constructor
  · intro h
    obtain ⟨v, hv, rfl, -⟩ := decode_of_yields hf hb h
    exact (same (unpack_length_of_validate hv ▸ hr)).1 h
  · intro h
    obtain ⟨-, -, -, -, hcap⟩ := decode_of_yields hi hb h
    exact (same (hcap rfl)).2 h

end

/-- Settles O59: with enough capacity the two checks answer alike, and a result OUT_CAP covers says there was enough. -/
theorem bufferedEqualsFresh : Obligations.BufferedEqualsFresh := fun _ _ hb ho =>
  ⟨encodeGeneral_checked hb ho (codec := .b32), encodeGeneral_checked hb ho (codec := .b64u),
    decodeGeneral_checked hb ho (codec := .b32), decodeGeneral_checked hb ho (codec := .b64u), fun _ hr =>
    ⟨yields_encode_iff hb ho (codec := .b32) rfl rfl hr, yields_encode_iff hb ho (codec := .b64u) rfl rfl hr,
      yields_decode_iff hb ho (codec := .b32) rfl rfl hr, yields_decode_iff hb ho (codec := .b64u) rfl rfl hr⟩⟩

end Sys2Proof.Machine
end

section
/-! PROOFS. Host actions one at a time: writes, reads, START and reset (10_state.md R26; 70_reset_and_hazards.md R220 to
R233). -/

namespace Sys2Proof.Machine

/-! ## Reset -/

/-- Settles O4: each value of the reset state is the one R28 lists. -/
theorem resetLeavesIdleAndNothingWritten : Obligations.ResetLeavesIdleAndNothingWritten :=
  ⟨rfl, rfl, rfl, fun i => ⟨Memory.read_nil i, Memory.read_nil i⟩, rfl, rfl, rfl, rfl⟩

/-- Settles O14: the action looks at no phase. -/
theorem resetAtAnyTime : Obligations.ResetAtAnyTime := fun _ _ hs =>
  ⟨_, step_cons hs, rfl, rfl, rfl, rfl, rfl, rfl, rfl, rfl⟩

/-! ## The command runs while BUSY -/

theorem idleStep_of_not_busy {s : State} (h : s.phase ≠ .busy) : idleStep s = .next s := by
  unfold idleStep
  split
  · contradiction
  · rfl
  · rfl

/-- Settles O15: the block has no command to finish. -/
theorem runIsOver : Obligations.RunIsOver := fun _ hs hp => (step_nil hs).trans (idleStep_of_not_busy hp)

/-- The wait for DONE while BUSY is the command CMD names. -/
theorem step_await_of_busy {s : State} {rest : List HostAction} (hp : s.phase = .busy) (hw : s.written.cmd = true)
    (hs : s.script = .awaitDone :: rest) : step s = exec (decodeCmd s.cmd) (s.withScript rest) := by
  rw [step_cons hs]
  exact (hostAwait_of_busy (s := s.withScript rest) hp).trans (runCommand_of_written hw)

/-- A table word the decoder accepts names the command its low four bits name in CMD. -/
theorem decodeCmd_of_decodeTableWord {w : Nat} {i : Instr} (h : decodeTableWord 8 w = some i) :
    decodeCmd (BitVec.ofNat 4 w) = i := by
  have hbytes : tableBytes 8 w = [BitVec.ofNat 8 w] := by simp [tableBytes, List.range_succ]
  have hlow : (BitVec.ofNat 8 w).setWidth 4 = BitVec.ofNat 4 w := BitVec.setWidth_ofNat_of_le (by decide) w
  rw [decodeTableWord, hbytes, decode, hlow] at h
  by_cases hlt : (BitVec.ofNat 8 w).toNat < 16
  · rw [if_pos hlt] at h
    exact Option.some.inj h
  · rw [if_neg hlt] at h
    exact absurd h nofun

/-- Settles O7: the idle step and the wait run the command CMD names; a fetched word stands in CMD with the host
waiting. -/
theorem stepRunsDecodedCommand : Obligations.StepRunsDecodedCommand := by
  refine ⟨?_, fun s w i hi => ?_⟩
  · rintro s i hp hw rfl
    refine ⟨fun hs => ?_, fun rest => step_await_of_busy hp hw⟩
    rw [step_nil hs, idleStep_of_busy hp, runCommand_of_written hw]
  · have hstep : step (s.withFetchWord 8 w) = _ := step_await_of_busy rfl rfl rfl
    exact decodeCmd_of_decodeTableWord hi ▸ hstep

/-! ## START -/

section
variable {s : State} (hp : s.phase ≠ .busy)
include hp

theorem hostStart_of_operands_error {r : Refusal} (ho : s.startOperands = .error r) : s.hostStart = .refused r := by
  unfold State.hostStart
  split
  · contradiction
  all_goals simp only [ho]

theorem hostStart_of_command_refused {r : Refusal} (ho : s.startOperands = .ok ()) (hr : runCommand s = .refused r) :
    s.hostStart = .refused r := by
  unfold State.hostStart
  split
  · contradiction
  all_goals simp only [ho, hr]

theorem hostStart_of_command_next {u : State} (ho : s.startOperands = .ok ()) (hu : runCommand s = .next u) :
    s.hostStart = .next s.begin := by
  unfold State.hostStart
  split
  · contradiction
  all_goals simp only [ho, hu]

end

theorem startOperands_of_written {s : State} (h : s.written.cmd = true) :
    s.startOperands = s.startInput (decodeCmd s.cmd) := by simp [State.startOperands, State.command, h]

theorem startOperands_of_unwritten {s : State} (h : s.written.cmd = false) :
    s.startOperands = .error (.unwrittenRegister .cmd) := by simp [State.startOperands, State.command, h]

/-- START is accepted where everything R223 lists is in place. -/
theorem hostStart_of_startable {s : State} (hp : s.phase ≠ .busy) (hw : s.written.cmd = true)
    (h : s.Startable (decodeCmd s.cmd)) : s.hostStart = .next s.begin := by
  obtain ⟨hinput, hready⟩ := State.startable_iff.1 h
  obtain ⟨u, hu⟩ := exec_of_ready hready
  exact hostStart_of_command_next hp ((startOperands_of_written hw).trans hinput) ((runCommand_of_written hw).trans hu)

/-- START is refused where something R223 lists is missing or out of bounds: the input, or what the command itself
reads. -/
theorem hostStart_of_not_startable {s : State} (hp : s.phase ≠ .busy) (hw : s.written.cmd = true)
    (h : ¬ s.Startable (decodeCmd s.cmd)) : ∃ r, s.hostStart = .refused r := by
  have ho := startOperands_of_written hw
  cases hinput : s.startInput (decodeCmd s.cmd) with
  | error r => exact ⟨r, hostStart_of_operands_error hp (ho.trans hinput)⟩
  | ok _ =>
    obtain ⟨r, hr⟩ := exec_refused_of_not_ready fun hready => h (State.startable_iff.2 ⟨hinput, hready⟩)
    exact ⟨r, hostStart_of_command_refused hp (ho.trans hinput) ((runCommand_of_written hw).trans hr)⟩

/-- The script is no operand. -/
theorem State.startable_withScript {s : State} {i : Instr} (rest : List HostAction) :
    (s.withScript rest).Startable i ↔ s.Startable i := ⟨fun h => { h with }, fun h => { h with }⟩

theorem step_start {s : State} {rest : List HostAction} (hs : s.script = .start :: rest) (hp : s.phase ≠ .busy)
    (hw : s.written.cmd = true) (h : s.Startable (decodeCmd s.cmd)) : step s = .next (s.withScript rest).begin :=
  (step_cons hs).trans
    (hostStart_of_startable (s := s.withScript rest) hp hw ((State.startable_withScript rest).2 h))

/-- Settles O8: START is accepted, and it writes no operand. -/
theorem startTakesPhaseToBusy : Obligations.StartTakesPhaseToBusy := fun _ _ hs hp hw h =>
  ⟨_, step_start hs hp hw h, rfl, ⟨rfl, rfl, rfl, rfl, rfl, rfl, rfl⟩, rfl, rfl⟩

theorem hostStart_of_busy {s : State} (h : s.phase = .busy) : s.hostStart = .refused .startWhileBusy := by
  unfold State.hostStart
  rw [h]

/-- Settles O9: the three refusals of START. -/
theorem startRefusals : Obligations.StartRefusals := by
  refine fun s rest hs => ⟨fun hp => ?_, fun hp hw => ?_, fun hp hw h => ?_⟩ <;> rw [step_cons hs]
  · exact hostStart_of_busy (s := s.withScript rest) hp
  · exact hostStart_of_operands_error (s := s.withScript rest) hp (startOperands_of_unwritten hw)
  · exact hostStart_of_not_startable (s := s.withScript rest) hp hw (mt (State.startable_withScript rest).1 h)

/-! ## Host writes -/

theorem hostWrite_of_busy {s : State} (s' : State) (h : s.phase = .busy) :
    s.hostWrite s' = .refused .hostWriteWhileBusy := by
  unfold State.hostWrite
  rw [h]

theorem hostWriteLen_of_lt {s : State} {n : Nat} (s' : State) (h : n < 2 ^ s.cfg.lenW) :
    s.hostWriteLen n s' = s.hostWrite s' := if_pos h

theorem hostWriteLen_of_ge {s : State} {n : Nat} (s' : State) (h : 2 ^ s.cfg.lenW ≤ n) :
    s.hostWriteLen n s' = .refused .lengthTooWide := if_neg (Nat.not_lt.2 h)

theorem hostWriteIbuf_of_lt {s : State} {i : Nat} (b : Byte) (h : i < s.cfg.ibufSize) :
    s.hostWriteIbuf i b = s.hostWrite (s.putIbuf i b) := if_pos h

theorem hostWriteIbuf_of_ge {s : State} {i : Nat} (b : Byte) (h : s.cfg.ibufSize ≤ i) :
    s.hostWriteIbuf i b = .fault (.noSuchElement .ibuf i) := if_neg (Nat.not_lt.2 h)

section
variable {s : State} {rest : List HostAction} (hp : s.phase ≠ .busy)
include hp

theorem hostWrite_withScript (s' : State) : (s.withScript rest).hostWrite s' = .next s' := hostWrite_of_not_busy s' hp

theorem step_writeCmd {c : CmdWord} (hs : s.script = .writeCmd c :: rest) :
    step s = .next ((s.withScript rest).putCmd c) := (step_cons hs).trans (hostWrite_withScript hp _)

theorem step_writeIval {v : Word64} (hs : s.script = .writeIval v :: rest) :
    step s = .next ((s.withScript rest).setIval v) := (step_cons hs).trans (hostWrite_withScript hp _)

theorem step_writeInLen {n : Nat} (hs : s.script = .writeInLen n :: rest) (hn : n < 2 ^ s.cfg.lenW) :
    step s = .next ((s.withScript rest).putInLen n) :=
  (step_cons hs).trans ((hostWriteLen_of_lt (s := s.withScript rest) _ hn).trans (hostWrite_withScript hp _))

theorem step_writeOutCap {n : Nat} (hs : s.script = .writeOutCap n :: rest) (hn : n < 2 ^ s.cfg.lenW) :
    step s = .next ((s.withScript rest).putOutCap n) :=
  (step_cons hs).trans ((hostWriteLen_of_lt (s := s.withScript rest) _ hn).trans (hostWrite_withScript hp _))

theorem step_writeIbuf {i : Nat} {b : Byte} (hs : s.script = .writeIbuf i b :: rest) (hi : i < s.cfg.ibufSize) :
    step s = .next ((s.withScript rest).putIbuf i b) :=
  (step_cons hs).trans ((hostWriteIbuf_of_lt (s := s.withScript rest) b hi).trans (hostWrite_withScript hp _))

end

/-- Settles O12: each write goes through, and its update names the register or element. -/
theorem hostWritesOneOperand : Obligations.HostWritesOneOperand := by
  intro s rest hp
  refine ⟨fun c hs => ⟨_, step_writeCmd hp hs, rfl, rfl, rfl⟩,
    fun n hs hn => ⟨_, step_writeInLen hp hs hn, rfl, rfl, rfl⟩,
    fun n hs hn => ⟨_, step_writeOutCap hp hs hn, rfl, rfl, rfl⟩,
    fun v hs => ⟨_, step_writeIval hp hs, rfl, rfl, rfl⟩,
    fun i b hs hi => ⟨_, step_writeIbuf hp hs hi, fun j => Memory.read_write s.ibuf i j b, rfl⟩, fun i b hs hi => ?_,
    fun n hs hn => ?_, fun n hs hn => ?_⟩ <;> rw [step_cons hs]
  · exact hostWriteIbuf_of_ge (s := s.withScript rest) b hi
  · exact hostWriteLen_of_ge (s := s.withScript rest) _ hn
  · exact hostWriteLen_of_ge (s := s.withScript rest) _ hn

/-! ## Host reads -/

/-- A host read that is not turned away records what the state reads as, and nothing else happens. -/
theorem step_read {s : State} {rest : List HostAction} {x : ReadTarget} {r : HostRead} (hs : s.script = .read x :: rest)
    (hp : s.phase = .busy → x = .reg .phase) (hr : s.readTarget x = .next r) :
    step s = .next ((s.withScript rest).record r) :=
  (step_cons hs).trans (hostRead_eq (s := s.withScript rest) hp ((s.readTarget_withScript rest x).trans hr))

theorem hostRead_of_busy {s : State} {x : ReadTarget} (hp : s.phase = .busy) (hx : x ≠ .reg .phase) :
    s.hostRead x = .refused .hostReadWhileBusy := if_pos ⟨hp, hx⟩

/-- Settles O10: every write meets the hazard of R225, every read but that of PHASE the one of R226. -/
theorem hazardsWhileBusy : Obligations.HazardsWhileBusy := by
  intro s rest hp
  have stop : ∀ s', (s.withScript rest).hostWrite s' = .refused .hostWriteWhileBusy := fun s' => hostWrite_of_busy s' hp
  refine ⟨fun c hs => ?_, fun n hn hs => ?_, fun n hn hs => ?_, fun v hs => ?_, fun i b hi hs => ?_, fun x hx hs => ?_,
    fun hs => ?_⟩
  · exact (step_cons hs).trans (stop _)
  · exact (step_cons hs).trans ((hostWriteLen_of_lt (s := s.withScript rest) _ hn).trans (stop _))
  · exact (step_cons hs).trans ((hostWriteLen_of_lt (s := s.withScript rest) _ hn).trans (stop _))
  · exact (step_cons hs).trans (stop _)
  · exact (step_cons hs).trans ((hostWriteIbuf_of_lt (s := s.withScript rest) b hi).trans (stop _))
  · exact (step_cons hs).trans (hostRead_of_busy (s := s.withScript rest) hp hx)
  · have hphase : s.regValue .phase = 1 := by rw [State.regValue, hp]; rfl
    exact step_read hs (fun _ => rfl) (by rw [State.readTarget_reg, hphase])

/-- A read of one element of OBUF within it. -/
theorem readTarget_obuf {s : State} {i : Nat} (h : i < s.cfg.obufSize) :
    s.readTarget (.obuf i) = .next (.obuf i (s.obufValue i)) := if_pos h

theorem step_read_obuf_of_ge {s : State} {rest : List HostAction} {i : Nat} (hs : s.script = .read (.obuf i) :: rest)
    (hp : s.phase ≠ .busy) (h : s.cfg.obufSize ≤ i) : step s = .fault (.noSuchElement .obuf i) := by
  have hr : (s.withScript rest).readTarget (.obuf i) = .fault (.noSuchElement .obuf i) := if_neg (Nat.not_lt.2 h)
  have hnot : ¬ ((s.withScript rest).phase = .busy ∧ ReadTarget.obuf i ≠ .reg .phase) := fun hb => hp hb.1
  rw [step_cons hs, hostAction, State.hostRead, if_neg hnot, hr]

/-- What any read that answers leaves: the script without it, and one more thing read. -/
theorem step_read_next {s t : State} {x : ReadTarget} {rest : List HostAction} (hs : s.script = .read x :: rest)
    (h : step s = .next t) : ∃ r, s.readTarget x = .next r ∧ t = (s.withScript rest).record r := by
  obtain ⟨-, r, hr, rfl⟩ := hostRead_next ((step_cons hs).symm.trans h)
  exact ⟨r, (s.readTarget_withScript rest x).symm.trans hr, rfl⟩

/-! ## Runs of several steps -/

theorem run_succ {s s' : State} (h : step s = .next s') (k : Nat) : core.run (k + 1) s = core.run k s' := by
  have h' : core.step s = .next s' := h
  simp only [Host.Core.run, h']

theorem step_of_run_succ {s t : State} {k : Nat} (h : core.run (k + 1) s = .next t) :
    ∃ s', step s = .next s' ∧ core.run k s' = .next t := by
  cases hs : step s with
  | next s' => exact ⟨s', rfl, (run_succ hs k).symm.trans h⟩
  | fault f =>
    have hs' : core.step s = .fault f := hs
    simp only [Host.Core.run, hs'] at h
    exact absurd h nofun
  | refused r =>
    have hs' : core.step s = .refused r := hs
    simp only [Host.Core.run, hs'] at h
    exact absurd h nofun

/-- Two reads of one thing in a row record the same, because the first changes nothing that is read (R50). -/
theorem run_read_twice {s t : State} {x : ReadTarget} {rest : List HostAction}
    (hs : s.script = .read x :: .read x :: rest) (h : core.run 2 s = .next t) :
    ∃ r, t = { s with script := rest, reads := s.reads ++ [r, r] } := by
  obtain ⟨s1, h1, hrun⟩ := step_of_run_succ h
  obtain ⟨s2, h2, hlast⟩ := step_of_run_succ hrun
  obtain rfl : s2 = t := Host.Outcome.next.inj hlast
  obtain ⟨r, hr, rfl⟩ := step_read_next hs h1
  obtain ⟨q, hq, rfl⟩ := step_read_next rfl h2
  rw [State.readTarget_record, State.readTarget_withScript, hr] at hq
  obtain rfl := Host.Outcome.next.inj hq
  have hreads : s.reads ++ [r] ++ [r] = s.reads ++ [r, r] := by simp
  exact ⟨r, by rw [← hreads]; rfl⟩

/-- Settles O13: each register and element reads as its value once it holds one; a read only records. -/
theorem hostReadsResults : Obligations.HostReadsResults := by
  refine ⟨fun s rest hp => ?_, fun s t x rest hs h => ?_, fun s t x rest => run_read_twice⟩
  · have go : ∀ {x r}, s.script = .read x :: rest → s.readTarget x = .next r →
        step s = .next ((s.withScript rest).record r) := fun hs hr => step_read hs (fun hb => absurd hb hp) hr
    have inWidth : ∀ n, n % 2 ^ s.cfg.lenW < 2 ^ s.cfg.lenW := fun n => Nat.mod_lt _ (by positivity)
    refine ⟨fun hs => ⟨_, fun hw => if_pos hw, go hs rfl⟩, fun hs => ⟨_, fun hw => if_pos hw, fun hw => ?_, go hs rfl⟩,
      fun hs => ⟨_, fun hw => if_pos hw, fun hw => ?_, go hs rfl⟩, fun hs => ⟨_, fun hw => if_pos hw, go hs rfl⟩,
      fun hs => go hs rfl, fun hs => go hs rfl, fun hs => go hs ?_,
      fun i hs => ⟨fun hi => ?_, step_read_obuf_of_ge hs hp⟩,
      fun hs => ⟨_, ?_, fun hr => ?_, go hs rfl⟩⟩
    · rw [hw]
      exact inWidth _
    · rw [hw]
      exact inWidth _
    · have hphase : s.regValue .phase = if s.phase = .idle then 0 else 2 := by
        rw [State.regValue]
        cases hcase : s.phase with
        | idle => rfl
        | done => rfl
        | busy => exact absurd hcase hp
      rw [State.readTarget_reg, hphase]
    · refine ⟨_, fun hne => ?_, go hs (readTarget_obuf hi)⟩
      obtain ⟨b, hb⟩ := Option.ne_none_iff_exists'.1 hne
      rw [State.obufValue_of_read hb, hb]
    · simp
    · obtain ⟨bs, hbs⟩ := Option.ne_none_iff_exists'.1 hr
      rw [State.map_obufValue hbs, hbs]
  · obtain ⟨r, -, rfl⟩ := step_read_next hs h
    exact ⟨r, rfl⟩

end Sys2Proof.Machine
end

section
/-! PROOFS. The lines of the host script that are several actions (30_encoding.md R77): the writes of IBUF, and a
mnemonic. -/

namespace Sys2Proof.Machine

/-! ## WRB and WRT -/

/-- The writes of the elements from `i` on leave them in IBUF and keep those below. -/
theorem run_writeElements (bs : List Byte) {i : Nat} {s : State} {rest : List HostAction} (k : Nat)
    (hp : s.phase ≠ .busy) (hfit : i + bs.length ≤ s.cfg.ibufSize) (hs : s.script = writeElements i bs ++ rest) :
    ∃ t : State, core.run (bs.length + k) s = core.run k t ∧ t.script = rest ∧ t.phase = s.phase ∧ t.cfg = s.cfg ∧
      Memory.readRange t.ibuf i bs.length = some bs ∧ ∀ j, j < i → Memory.read t.ibuf j = Memory.read s.ibuf j := by
  induction bs generalizing i s with
  | nil => exact ⟨s, by rw [List.length_nil, Nat.zero_add], hs, rfl, rfl, rfl, fun _ _ => rfl⟩
  | cons b bs ih =>
    rw [List.length_cons] at hfit
    have hstep := step_writeIbuf hp hs (by omega)
    obtain ⟨t, hrun, hscript, hphase, hcfg, hrange, hbelow⟩ :=
      ih (i := i + 1) (s := (s.withScript (writeElements (i + 1) bs ++ rest)).putIbuf i b) hp
        (show i + 1 + bs.length ≤ s.cfg.ibufSize by omega) rfl
    have hread : Memory.read t.ibuf i = some b :=
      (hbelow i (Nat.lt_succ_self i)).trans (Memory.read_write_same s.ibuf i b)
    refine ⟨t, ?_, hscript, hphase, hcfg, ?_, fun j hj => ?_⟩
    · rw [List.length_cons, Nat.add_right_comm]
      exact (run_succ hstep _).trans hrun
    · simp only [List.length_cons, Memory.readRange, hread, hrange]
    · exact (hbelow j (by omega)).trans (Memory.read_write_other s.ibuf b (by omega))

/-- Settles O17: the elements are written from index 0 on, then their count. -/
theorem writeLinePresentsBytes : Obligations.WriteLinePresentsBytes := by
  intro s line bytes rest hline hp hfit hlen hs
  have hactions : line.actions = writeElements 0 bytes ++ [.writeInLen bytes.length] := by
    obtain rfl | rfl := hline <;> rfl
  rw [hactions, List.append_assoc] at hs
  obtain ⟨t, hrun, hscript, hphase, hcfg, hrange, -⟩ := run_writeElements bytes 1 hp (by omega) hs
  have hstep := step_writeInLen (show t.phase ≠ .busy from hphase ▸ hp) hscript (hcfg ▸ hlen)
  refine ⟨_, hrun.trans (run_succ hstep 0), ⟨rfl, rfl, ?_, hrange⟩, hphase, rfl, hcfg⟩
  exact hcfg ▸ hfit

/-! ## A mnemonic -/

theorem exec_cmd {i : Instr} {s t : State} (h : exec i s = .next t) : t.cmd = s.cmd := by
  cases exec_commandEnd h <;> rfl

theorem exec_script {i : Instr} {s t : State} (h : exec i s = .next t) : t.script = s.script := by
  cases exec_commandEnd h <;> rfl

/-- The command word is no operand of the command it names. -/
theorem State.Startable.putCmd {s : State} {i : Instr} (h : s.Startable i) (c : CmdWord) : (s.putCmd c).Startable i :=
  { h with }

/-- The state in which the third action of a mnemonic line finds the block: CMD written, START given. -/
def State.started (s : State) (c : CmdWord) (rest : List HostAction) : State := ((s.putCmd c).begin).withScript rest

theorem State.started_agree (s : State) (c : CmdWord) (rest : List HostAction) : AgreeOnOperands s (s.started c rest) :=
  ((AgreeOnOperands.putCmd s c).trans (.begin _)).trans (.withScript _ _)

/-- The three actions of a mnemonic line run its command on the state its first two leave (R77). -/
theorem run_commandActions {s t : State} {c : CmdWord} {i : Instr} {rest : List HostAction} (hp : s.phase ≠ .busy)
    (hc : decodeCmd c = i) (h : s.Startable i) (hs : s.script = commandActions c ++ rest)
    (ht : exec i (s.started c rest) = .next t) : core.run 3 s = .next t := by
  subst hc
  have hready : ((s.withScript (.start :: .awaitDone :: rest)).putCmd c).Startable (decodeCmd c) :=
    State.Startable.putCmd ((State.startable_withScript _).2 h) c
  have hwrite := step_writeCmd hp hs
  have hstart := step_start (s := (s.withScript (.start :: .awaitDone :: rest)).putCmd c) rfl hp rfl hready
  have hwait : step ((s.putCmd c).begin.withScript (.awaitDone :: rest)) = .next t :=
    (step_await_of_busy rfl rfl rfl).trans ht
  exact (run_succ hwrite 2).trans ((run_succ hstart 1).trans (run_succ hwait 0))

/-- Settles O18: the block runs the command on the operands of the state before, so it ends as the command does
there. -/
theorem mnemonicLineRunsCommand : Obligations.MnemonicLineRunsCommand := by
  intro s i rest hp h hs
  have hline : s.script = commandActions (encode i) ++ rest := hs.elim id id
  obtain ⟨u, hu⟩ := exec_of_ready h.ready
  have agree := s.started_agree (encode i) rest
  have halike : EndsAlike s (s.started (encode i) rest) i (.next u) (exec i (s.started (encode i) rest)) :=
    hu ▸ exec_endsAlike ⟨⟨rfl, rfl, rfl, rfl, rfl, rfl, rfl, rfl⟩, fun _ _ => rfl⟩
  obtain ⟨t, ht, hst, hlen, hres, hival⟩ := halike.same_outcome agree.ival
  have hrun := run_commandActions hp (decodeCmd_encode i) h hline ht
  exact ⟨t, u, hrun, hu, exec_phase ht, exec_cmd ht, exec_script ht, hst, hlen, hres, hival⟩

end Sys2Proof.Machine
end

section
/-! PROOFS. Several instances (20_memory.md R57, 60_exceptions.md R210): a step of a system is the step of one of its
instances, put back in its place. -/

namespace Sys2Proof.Machine

/-- Everything a step of block `k` can do when it answers a next system. -/
theorem System.step_cases {sys sys' : System} {k : Nat} (h : System.step sys k = .next sys') :
    (sys[k]? = none ∧ sys' = sys) ∨ ∃ s t, sys[k]? = some s ∧ Machine.step s = .next t ∧ sys' = sys.set k t := by
  unfold System.step at h
  split at h
  · next hk => exact .inl ⟨hk, (Host.Outcome.next.inj h).symm⟩
  · next s hk =>
    split at h
    · next t ht => exact .inr ⟨s, t, hk, ht, (Host.Outcome.next.inj h).symm⟩
    · exact absurd h nofun
    · exact absurd h nofun

theorem System.step_of_none {sys : System} {k : Nat} (h : sys[k]? = none) : System.step sys k = .next sys := by
  simp only [System.step, h]

theorem System.step_of_some {sys : System} {k : Nat} {s t : State} (h : sys[k]? = some s)
    (ht : Machine.step s = .next t) :
    System.step sys k = .next (sys.set k t) := by simp only [System.step, h, ht]

theorem System.wf_iff {c : Config} {sys : System} :
    System.wf c sys = true ↔ c.wf = true ∧ 1 ≤ sys.length ∧ ∀ s ∈ sys, s.cfg = c := by
  simp [System.wf, and_assoc]

theorem System.step_frame {sys sys' : System} {k : Nat} (h : System.step sys k = .next sys') :
    sys'.length = sys.length ∧ ∀ j, j ≠ k → sys'[j]? = sys[j]? := by
  obtain ⟨-, rfl⟩ | ⟨s, t, -, -, rfl⟩ := System.step_cases h
  · exact ⟨rfl, fun _ _ => rfl⟩
  · exact ⟨List.length_set, fun j hj => List.getElem?_set_ne (Ne.symm hj)⟩

/-- What block `k` does depends on block `k` alone. -/
theorem System.step_local {a b a' : System} {k : Nat} (hk : b[k]? = a[k]?) (h : System.step a k = .next a') :
    ∃ b', System.step b k = .next b' ∧ b'[k]? = a'[k]? := by
  obtain ⟨hnone, rfl⟩ | ⟨s, t, hsome, ht, rfl⟩ := System.step_cases h
  · exact ⟨b, System.step_of_none (hk.trans hnone), hk⟩
  · refine ⟨_, System.step_of_some (hk.trans hsome) ht, ?_⟩
    obtain ⟨ha, -⟩ := List.getElem?_eq_some_iff.1 hsome
    obtain ⟨hb, -⟩ := List.getElem?_eq_some_iff.1 (hk.trans hsome)
    rw [List.getElem?_set_self ha, List.getElem?_set_self hb]

theorem System.step_wf {c : Config} {sys sys' : System} {k : Nat} (hwf : System.wf c sys = true)
    (h : System.step sys k = .next sys') : System.wf c sys' = true := by
  obtain ⟨-, rfl⟩ | ⟨s, t, hsome, ht, rfl⟩ := System.step_cases h
  · exact hwf
  · obtain ⟨hc, hlen, hall⟩ := System.wf_iff.1 hwf
    refine System.wf_iff.2 ⟨hc, by rwa [List.length_set], fun u hu => ?_⟩
    obtain hu | rfl := List.mem_or_eq_of_mem_set hu
    · exact hall u hu
    · exact (step_cfg ht).trans (hall s (List.mem_of_getElem? hsome))

theorem System.wf_reset_iff {c : Config} (hc : c.wf = true) (n : Nat) :
    System.wf c (System.reset c n) = true ↔ 1 ≤ n := by
  rw [System.wf_iff, System.reset, List.length_replicate]
  exact ⟨fun h => h.2.1, fun h => ⟨hc, h, fun s hs => by rw [List.eq_of_mem_replicate hs]⟩⟩

/-- Settles O16: frame, locality, and R7's constraints at a step and after reset. -/
theorem instancesAreIndependent : Obligations.InstancesAreIndependent :=
  ⟨fun _ _ _ => System.step_frame, fun _ _ _ _ => System.step_local, fun _ _ _ _ => System.step_wf,
    fun _ n hc => System.wf_reset_iff hc n⟩

end Sys2Proof.Machine
end
